-- ==== Sys2Proof/Word.lean ====
section
/-! DEFINITION. The two widths of the block: a byte and a 16-bit value (00_scope.md R12). -/

namespace Sys2Proof

/-- "A byte is 8 bits, an unsigned value 0 to 255" (R12). -/
abbrev Byte := BitVec 8

/-- A 16-bit value: the checksum register, a length, an operation word (R12). -/
abbrev Word := BitVec 16

end Sys2Proof
end

