-- ==== Sys2Proof/Config.lean ====
section
/-! DEFINITION. The constants the source fixes (00_scope.md R9), the capacities of the hardware binding
(R10), and the one free value of the block: what a buffer byte holds after a reset (10_state.md R41). -/

namespace Sys2Proof

/-- The three byte buffers (10_state.md R30 to R32), three disjoint spaces (20_memory.md R50). -/
inductive Buf where
  | pbuf
  | txbuf
  | rxbuf
  deriving DecidableEq, Repr

/-- `START`, the start marker (R9). -/
abbrev Config.start : Byte := 0xAA

/-- `POLY`, the CRC polynomial (R9). -/
abbrev Config.poly : Word := 0x1021

/-- `CRC_INIT`, the checksum register before the first byte (R9). -/
abbrev Config.crcInit : Word := 0xFFFF

/-- `MAX_PAYLOAD`, fixed at 1024 for the block (R9, R11). -/
abbrev Config.maxPayload : Nat := 1024

/-- `MIN_FRAME`, the length of a frame with an empty payload (R9). -/
abbrev Config.minFrame : Nat := 6

/-- `OVERHEAD`, the bytes of a frame that are not payload (R9). -/
abbrev Config.overhead : Nat := 6

/-- `PCAP`, the capacity of `PBUF` (R10). -/
abbrev Config.pcap : Nat := 1024

/-- `TXCAP`, the capacity of `TXBUF` (R10). -/
abbrev Config.txcap : Nat := 1030

/-- `RXCAP`, the capacity of `RXBUF`, at its default (R10).
DESIGN CHOICE, log entry 7: not taken as an argument. -/
abbrev Config.rxcap : Nat := 1030

/-- The capacity of a buffer: its indexes are 0 to this less 1 (R10, 20_memory.md R50). -/
def Config.capacity : Buf → Nat
  | .pbuf => Config.pcap
  | .txbuf => Config.txcap
  | .rxbuf => Config.rxcap

/-- FREE VALUE, log entry 3. The byte that the reset numbered `draw` left at an index of a buffer: "each
byte holds some value 0 to 255 that the spec does not fix", "a draw made once at reset", "under no law"
(10_state.md R41, 93_implementation_defined.md U1). It has no body, so nothing can be proved of its value. -/
opaque Config.drawnByte : (draw : Nat) → Buf → (index : Nat) → Byte

/-! ## The software around the block (45_payload_software.md R180: no part of the block) -/

/-- The serializer's own maximum, "default 1024 bytes" (R181); it is configurable, the block's cap is not
(00_scope.md R11, 90_conflicts.md C4). -/
abbrev Config.serializerMax : Nat := 1024

/-- FREE VALUE, log entry 18. The replacement marker of `read_string`: the source says "a replacement marker" and
does not name it (R192, 91_not_in_source.md N14, 93_implementation_defined.md G2). -/
opaque Config.replacementMarker : Char

/-- FREE VALUE, log entry 18. How many invalid sequences a stretch of bytes counts as in which no character's encoding
starts, so how many markers stand for it: the source does not say where one invalid sequence ends and the next
begins (R192). `markersFor` keeps it from one to the number of bytes. -/
opaque Config.invalidSequences : List Byte → Nat

/-- FREE VALUE, log entry 18. Whether a payload of encoder data that ends before its velocity byte still
parses, and with which velocity: "whether velocity is mandatory is not stated" (R204). -/
opaque Config.missingVelocity : Option Byte

/-- The subsystems the command vocabulary is grouped by (R200). -/
inductive Subsystem where
  | system
  | led
  | sensor
  | rotaryEncoder
  | display
  | genericData
  deriving DecidableEq, Repr

/-- FREE VALUE, log entry 20. How many further members a subsystem's group has: the source lists the groups and does
not name their members (R200, 91_not_in_source.md N10). -/
opaque Config.unnamedCommands : Subsystem → Nat

/-- The number of members of a group that the source does not name. The system group is listed whole,
"ping/pong/error/ack" (R200; DEDUCED, log entry 20). -/
def unnamedCommandCount : Subsystem → Nat
  | .system => 0
  | .led => Config.unnamedCommands .led
  | .sensor => Config.unnamedCommands .sensor
  | .rotaryEncoder => Config.unnamedCommands .rotaryEncoder
  | .display => Config.unnamedCommands .display
  | .genericData => Config.unnamedCommands .genericData

/-- The command vocabulary, "a closed enumeration grouped by subsystem" (R200): the members the source names, and
those it does not name, as many as each group has. -/
inductive Command where
  | ping
  | pong
  | error
  | ack
  | ledBlink
  | encoderData
  | oledText
  | unnamed (group : Subsystem) (k : Fin (unnamedCommandCount group))
  deriving DecidableEq, Repr

/-- FREE VALUE, log entry 20. The value of a member whose value the source does not print, a constant of the wire
(R200, 91_not_in_source.md N10). -/
opaque Config.openCommandValue : Command → Byte

/-- The seven error codes in the source's order, payload content and not codes of `STATUS` (R202). -/
inductive ErrorCode where
  | ok
  | invalidCommand
  | invalidChecksum
  | timeout
  | bufferOverflow
  | invalidParameter
  | notReady
  deriving DecidableEq, Repr

/-- FREE VALUE, log entry 21. The single byte of an error code: "numeric values are not in the source"
(R202, 91_not_in_source.md N11). -/
opaque Config.errorCodeValue : ErrorCode → Byte

end Sys2Proof
end

