-- ==== Sys2Proof/Syntax.lean ====
section
/-! DEFINITION. The operations of the block: one constructor per row of spec/opcode_table.json
(30_encoding.md R91). A word that matches no row is ILLEGAL: the decoder rejects it (log entry 8). -/

namespace Sys2Proof

/-- The four operations, the block's instructions (R91). -/
inductive Instr where
  /-- `CRC.INIT`, no immediate (40_crc.md R114). -/
  | crcInit
  /-- `CRC.BYTE b`, the data byte as its immediate (40_crc.md R115). -/
  | crcByte (b : Byte)
  /-- `ENC c`, the command identifier as its immediate (41_encode.md R133). -/
  | enc (c : Byte)
  /-- `DEC`, no immediate (42_decode.md R143). -/
  | dec
  deriving DecidableEq, Repr

end Sys2Proof
end

