-- ==== Sys2Proof/WellFormed.lean ====
section
/-! DEFINITION. The format of an operation word, field by field (30_encoding.md R90), and which field
contents select an operation (R90, R93, R95). Every term of `Instr` is well formed, because its immediate
is a byte by type (R92); the checks below are those on the fields of a word. -/

namespace Sys2Proof

/-- The format `OPW`: `opc = W[15:12]`, `zero = W[11:8]`, `imm8 = W[7:0]` (R90). -/
structure Opw where
  opc : BitVec 4
  zero : BitVec 4
  imm8 : Byte
  deriving DecidableEq, Repr

/-- Operation codes 1 to 4 are in use, 0 and 5 to 15 are not (R91, R95). -/
def Opw.opcUsed (o : Opw) : Bool :=
  decide (1 ≤ o.opc.toNat) && decide (o.opc.toNat ≤ 4)

/-- "must be `0000`" (R90). -/
def Opw.zeroClear (o : Opw) : Bool :=
  o.zero == 0

/-- `imm8` "must be 0 for `CRC.INIT` and `DEC`" (R90, R93). -/
def Opw.immAllowed (o : Opw) : Bool :=
  (o.opc == 2 || o.opc == 3) || o.imm8 == 0

/-- The fields select one of the four operations (R90, R93, R95). -/
def Opw.wellFormed (o : Opw) : Bool :=
  o.opcUsed && o.zeroClear && o.immAllowed

/-- The fields of an operation's word (R91). -/
def Instr.fields : Instr → Opw
  | .crcInit => ⟨1, 0, 0⟩
  | .crcByte b => ⟨2, 0, b⟩
  | .enc c => ⟨3, 0, c⟩
  | .dec => ⟨4, 0, 0⟩

/-- An operation is well formed when the fields of its word are. -/
def Instr.wellFormed (i : Instr) : Bool :=
  i.fields.wellFormed

end Sys2Proof
end

