-- ==== Sys2Proof/Decode.lean ====
section
/-! DEFINITION. Decoding an operation word (30_encoding.md R94), total on all 65536 words, and the encoder
of the same table (R91, R97). -/

namespace Sys2Proof

/-- What `decode_op` gives: an operation, or the name `ILLEGAL` (R94, R95). -/
inductive Decoded where
  | legal (i : Instr)
  | illegal
  deriving DecidableEq, Repr

/-- `W[7:0]` (R90, R92): used as it stands, not extended, scaled or shifted. -/
def imm8 (w : Word) : Byte :=
  w.extractLsb' 0 8

/-- The fields of a word (R90). -/
def fieldsOfWord (w : Word) : Opw :=
  ⟨w.extractLsb' 12 4, w.extractLsb' 8 4, imm8 w⟩

/-- `decode_op(W)`, line by line (R94). -/
def decodeOp (w : Word) : Decoded :=
  if w &&& 0xFFFF = 0x1000 then .legal .crcInit
  else if w &&& 0xFF00 = 0x2000 then .legal (.crcByte (imm8 w))
  else if w &&& 0xFF00 = 0x3000 then .legal (.enc (imm8 w))
  else if w &&& 0xFFFF = 0x4000 then .legal .dec
  else .illegal

/-- The word of an operation (R97): `0x1000`, `0x2000 + b`, `0x3000 + c`, `0x4000`. -/
def encode : Instr → Word
  | .crcInit => 0x1000
  | .crcByte b => 0x2000 + b.setWidth 16
  | .enc c => 0x3000 + c.setWidth 16
  | .dec => 0x4000

/-- The 16-bit operation word whose `nbits` low bits are those of `w`; a word has no bit above bit 15. It is
"a number handed over whole" and "has no byte order" (R90; log entry 11). -/
def tableWord (nbits w : Nat) : Word :=
  BitVec.ofNat 16 (w % 2 ^ nbits)

/-- The instruction the decoder reads from the word whose bits are `w`, numbered as the opcode table numbers
them. -/
def decodeTableWord (nbits w : Nat) : Option Instr :=
  match decodeOp (tableWord nbits w) with
  | .legal i => some i
  | .illegal => none

end Sys2Proof
end

