-- ==== Sys2Proof/Machine/State.lean ====
section
/-! DEFINITION. The state of the block (10_state.md R20 to R36), the events that reach it from outside
(43_host_interface.md R161 to R166, 70_reset_and_hazards.md R250), the reset state (10_state.md R40, R41), and
the reasons a step could stop, of which the block has none (43_host_interface.md R173). -/

namespace Sys2Proof.Machine

/-- The written bytes of one buffer: pairs of an index and the byte last written there since reset, indexes
strictly rising. An index that is not listed has not been written since reset (log entries 3 and 4). -/
abbrev Mem := List Host.Cell

/-- The seven registers (10_state.md R22). -/
inductive Reg where
  | crc
  | plen
  | txlen
  | rxlen
  | rcmd
  | rlen
  | status
  deriving DecidableEq, Repr

/-- The host moves: exactly those of 43_host_interface.md R161 and R163 to R165. A move the spec does not
give has no constructor and an index is of a bounded type (R166, log entry 10). -/
inductive Move where
  /-- `ISSUE(W)`, any of the 65536 words (R161). -/
  | issue (w : Word)
  /-- `WR PLEN, v` (R163). -/
  | wrPlen (v : Word)
  /-- `WR RXLEN, v` (R163). -/
  | wrRxlen (v : Word)
  /-- `WR PBUF[i], b` (R164). -/
  | wrPbuf (i : Fin Config.pcap) (b : Byte)
  /-- `WR RXBUF[i], b` (R164). -/
  | wrRxbuf (i : Fin Config.rxcap) (b : Byte)
  /-- `RD` of a register (R165). -/
  | rdReg (r : Reg)
  /-- `RD PBUF[i]` (R165). -/
  | rdPbuf (i : Fin Config.pcap)
  /-- `RD TXBUF[i]` (R165). -/
  | rdTxbuf (i : Fin Config.txcap)
  /-- `RD RXBUF[i]` (R165). -/
  | rdRxbuf (i : Fin Config.rxcap)
  deriving DecidableEq, Repr

/-- What reaches the block from outside: a host move, or the reset input, which "is not an operation and no
operation word causes it" (70_reset_and_hazards.md R250; log entry 6). -/
inductive Event where
  | move (m : Move)
  | reset
  deriving DecidableEq, Repr

/-- The value a read returns to the host: a byte or a 16-bit number (43_host_interface.md R165). -/
inductive Answer where
  | byte (b : Byte)
  | word (v : Word)
  deriving DecidableEq, Repr

/-- The whole state. The first ten fields are the spec's record (10_state.md R22); the last three are the
model's own and carry what stands outside the block. -/
structure State where
  /-- The checksum register (R23). -/
  crc : Word
  /-- Length of the payload to encode (R24). -/
  plen : Word
  /-- Length of the encoded frame, 0 when the last `ENC` failed (R25). -/
  txlen : Word
  /-- Length of the candidate buffer (R26). -/
  rxlen : Word
  /-- Command identifier of the accepted frame, 0 after a reject (R27). -/
  rcmd : Byte
  /-- Payload length of the accepted frame, 0 after a reject (R28). -/
  rlen : Word
  /-- Outcome code, `CODE = STATUS[2:0]`, bits 7:3 read 0 (R29). -/
  status : Byte
  /-- The payload to encode (R30). -/
  pbuf : Mem
  /-- The encoded frame (R31). -/
  txbuf : Mem
  /-- The candidate buffer to decode (R32). -/
  rxbuf : Mem
  /-- Which reset's draw the unwritten buffer bytes hold (R41; log entry 3). -/
  draw : Nat
  /-- The events that have not happened yet, the next one first (log entry 1). -/
  pending : List Event
  /-- The value the host's latest read returned, if there was one (log entry 5). -/
  answer : Option Answer
  deriving DecidableEq, Repr

/-- The reasons a step stops with a fault: none. "It has no fault outcome" (43_host_interface.md R173);
"Nothing in the block is treated as `fault` or `stuck`" (93_implementation_defined.md). -/
inductive Fault where
  deriving DecidableEq, Repr

/-- The reasons a step is refused: the spec gives none (43_host_interface.md R173). -/
inductive Refusal where
  /-- An instruction of the table without a meaning. Nothing raises it: every row has its meaning. It would
  be safe, since the machine would stop where the block goes on. -/
  | notModelled (mnemonic : String)
  deriving DecidableEq, Repr

/-- The block right after reset: `CRC = 0xFFFF`, every other register 0 (10_state.md R40), no buffer byte
written since reset (R41). The model's own fields start at draw 0, no event pending and no value read
(DESIGN CHOICE, log entries 1, 3 and 5). -/
def State.reset : State where
  crc := 0xFFFF
  plen := 0
  txlen := 0
  rxlen := 0
  rcmd := 0
  rlen := 0
  status := 0
  pbuf := []
  txbuf := []
  rxbuf := []
  draw := 0
  pending := []
  answer := none

end Sys2Proof.Machine
end

