-- ==== Sys2Proof/Machine/Operands.lean ====
section
/-! DEFINITION. The operand forms: the halves of a 16-bit value and their joining, big-endian
(20_memory.md R52), and byte sequences (00_scope.md R13). The immediate byte is `imm8` of Decode.lean. -/

namespace Sys2Proof.Machine

/-- The high byte `v[15:8]` (R12). -/
def hi8 (v : Word) : Byte :=
  v.extractLsb' 8 8

/-- The low byte `v[7:0]` (R12). -/
def lo8 (v : Word) : Byte :=
  v.extractLsb' 0 8

/-- `{a, b}`, `a` in the more significant position (R12): a big-endian field of two bytes (R52). -/
def join (a b : Byte) : Word :=
  a ++ b

/-- `s[a .. b)`: the bytes with index `i`, `a ≤ i < b` (R13). -/
def slice (s : List Byte) (a b : Nat) : List Byte :=
  (s.drop a).take (b - a)

/-- `s[i]` of a byte sequence (R13). The rules read it only below the length of `s`; beyond it the function
answers 0, and no definition of the model gets there. -/
def byteAt (s : List Byte) (i : Nat) : Byte :=
  s.getD i 0

end Sys2Proof.Machine
end

