-- ==== Sys2Proof/Machine/Flags.lean ====
section
/-! DEFINITION. The block has no flags (10_state.md R33): its one condition is `STATUS`, whose codes are
here (R29). -/

namespace Sys2Proof.Machine

/-- The outcome codes (R29). -/
inductive Code where
  /-- `ENC`: a frame is in `TXBUF[0 .. TXLEN)`; `DEC`: accept. -/
  | stOk
  /-- `ENC`: `PLEN > 1024`. -/
  | stOversize
  /-- `DEC`: `RXLEN < 6`. -/
  | stShort
  /-- `DEC`: `RXBUF[0] ≠ 0xAA`. -/
  | stMarker
  /-- `DEC`: `6 + N > RXLEN`. -/
  | stTrunc
  /-- `DEC`: the recomputed checksum differs from the received one. -/
  | stCrc
  /-- `DEC`: `RXLEN > RXCAP`, the operand names no buffer. -/
  | stRxlen
  /-- The operation word selects no operation. -/
  | stIllegal
  deriving DecidableEq, Repr

/-- The value of a code in `STATUS[2:0]`; `STATUS[7:3]` is never written to anything but 0 (R29). -/
def Code.value : Code → Byte
  | .stOk => 0
  | .stOversize => 1
  | .stShort => 2
  | .stMarker => 3
  | .stTrunc => 4
  | .stCrc => 5
  | .stRxlen => 6
  | .stIllegal => 7

/-- `STATUS[2:0]`, the field `CODE` (R29). -/
def State.code (s : State) : BitVec 3 :=
  s.status.extractLsb' 0 3

/-- `STATUS[7:3]`, reserved, "always reads 0" (R29). -/
def State.statusReserved (s : State) : BitVec 5 :=
  s.status.extractLsb' 3 5

end Sys2Proof.Machine
end

