-- ==== Sys2Proof/Machine/Ops.lean ====
section
/-! DEFINITION. The named operations over buffers and registers: `MemRead` and `MemWrite`
(00_scope.md R14, 20_memory.md R56), the register writes, the failure report, which is all the block has in
the place of an exception (60_exceptions.md R220, R224, R225), and the reset event (70_reset_and_hazards.md R250). -/

namespace Sys2Proof.Machine

/-! ## A buffer's written bytes -/

/-- The byte last written at index `i` since reset, if any. -/
def Mem.written : Mem → Nat → Option Byte
  | [], _ => none
  | (k, b) :: m, i => if i = k then some b else Mem.written m i

/-- The list with byte `b` written at index `i`, indexes kept strictly rising. -/
def Mem.set : Mem → Nat → Byte → Mem
  | [], i, b => [(i, b)]
  | (k, c) :: m, i, b =>
    if i < k then (i, b) :: (k, c) :: m
    else if i = k then (i, b) :: m
    else (k, c) :: Mem.set m i b

/-- Every index listed lies above `lo`, and the indexes rise strictly. -/
def Mem.risingAbove : Nat → Mem → Bool
  | _, [] => true
  | lo, (k, _) :: m => decide (lo < k) && Mem.risingAbove k m

/-- The canonical form: the listed indexes rise strictly. An unlisted index holds no written byte, so no
entry can equal what an unlisted index holds (log entry 4). -/
def Mem.wf : Mem → Bool
  | [] => true
  | (k, _) :: m => Mem.risingAbove k m

/-- Every listed index is one of the buffer's: below `cap` (20_memory.md R50). -/
def Mem.within (cap : Nat) (m : Mem) : Bool :=
  m.all fun c => decide (c.1 < cap)

/-! ## The three buffers -/

/-- The written bytes of a buffer. -/
def State.buf (s : State) : Buf → Mem
  | .pbuf => s.pbuf
  | .txbuf => s.txbuf
  | .rxbuf => s.rxbuf

/-- Replace the written bytes of one buffer; the spaces are disjoint storage (20_memory.md R50). -/
def State.setBuf (s : State) (B : Buf) (m : Mem) : State :=
  match B with
  | .pbuf => { s with pbuf := m }
  | .txbuf => { s with txbuf := m }
  | .rxbuf => { s with rxbuf := m }

/-- `MemRead(B, i)` (R14, R56): the byte last written there since reset, else the byte that the reset drew
(10_state.md R41). It changes nothing (R57). -/
def State.memRead (s : State) (B : Buf) (i : Nat) : Byte :=
  match (s.buf B).written i with
  | some b => b
  | none => Config.drawnByte s.draw B i

/-- `MemWrite(B, i, v)` (R14, R56): "replaces it with the byte `v` and changes nothing else". -/
def State.memWrite (s : State) (B : Buf) (i : Nat) (v : Byte) : State :=
  s.setBuf B ((s.buf B).set i v)

/-- The bytes at `a`, `a + 1`, ..., `n` of them, read in increasing order. -/
def State.readFrom (s : State) (B : Buf) (a : Nat) : Nat → List Byte
  | 0 => []
  | n + 1 => s.memRead B a :: State.readFrom s B (a + 1) n

/-- `B[a .. b)`: "the byte sequence obtained by `MemRead(B, i)` for `i` from `a` to `b - 1` in increasing
order" (R14). -/
def State.bytes (s : State) (B : Buf) (a b : Nat) : List Byte :=
  s.readFrom B a (b - a)

/-! ## Register writes -/

/-- `CRC <- v`. -/
def State.setCrc (s : State) (v : Word) : State :=
  { s with crc := v }

/-- `PLEN <- v`. -/
def State.setPlen (s : State) (v : Word) : State :=
  { s with plen := v }

/-- `TXLEN <- v`. -/
def State.setTxlen (s : State) (v : Word) : State :=
  { s with txlen := v }

/-- `RXLEN <- v`. -/
def State.setRxlen (s : State) (v : Word) : State :=
  { s with rxlen := v }

/-- `RCMD <- v`. -/
def State.setRcmd (s : State) (v : Byte) : State :=
  { s with rcmd := v }

/-- `RLEN <- v`. -/
def State.setRlen (s : State) (v : Word) : State :=
  { s with rlen := v }

/-- `STATUS <- v`. -/
def State.setStatus (s : State) (v : Byte) : State :=
  { s with status := v }

/-- The events still to come, once the first has been taken (log entry 1). -/
def State.setPending (s : State) (es : List Event) : State :=
  { s with pending := es }

/-- The value a read has returned to the host (log entry 5). -/
def State.setAnswer (s : State) (a : Answer) : State :=
  { s with answer := some a }

/-! ## The report and the reset event -/

/-- `report C`: "`STATUS <- C`, and the operation ends" (60_exceptions.md R220). It saves nothing, changes
no mode and goes nowhere (R224), and nothing returns from it (R225). -/
def State.report (s : State) (c : Code) : State :=
  s.setStatus c.value

/-- The reset event (70_reset_and_hazards.md R250): every register takes its reset value, and the buffers
hold a new draw of unspecified bytes. What stands outside the block, the events still to come and the value
last read, is not the block's to reset (DESIGN CHOICE, log entry 6). -/
def State.resetEvent (s : State) : State :=
  { State.reset with draw := s.draw + 1, pending := s.pending, answer := s.answer }

end Sys2Proof.Machine
end

