-- ==== Sys2Proof/Machine/Crc.lean ====
section
/-! DEFINITION. The checksum functions the source fixes: one round, one byte, a byte sequence
(40_crc.md R110 to R113), and the bit-serial form of the same function (R119). -/

namespace Sys2Proof.Machine

/-- `crc_round(r)` (R111). The high bit tested is bit 15 before the shift; a `Word` keeps 16 bits, which is
the rule's mask. -/
def crcRound (r : Word) : Word :=
  if r.getLsbD 15 then (r <<< 1) ^^^ Config.poly else r <<< 1

/-- `crc_round` applied `k` times (R112). -/
def crcRounds : Nat → Word → Word
  | 0, r => r
  | k + 1, r => crcRounds k (crcRound r)

/-- `crc_byte(r, b)` (R112): the byte into bits 15 to 8, then exactly eight rounds. -/
def crcByte (r : Word) (b : Byte) : Word :=
  crcRounds 8 (r ^^^ (b.setWidth 16 <<< 8))

/-- `crc_byte` over a byte sequence, first to last, from `r` (R113, R118). -/
def crcFold (r : Word) (s : List Byte) : Word :=
  s.foldl crcByte r

/-- `crc16(s)` (R113): the fold from `0xFFFF`, with no final exclusive or. -/
def crc16 (s : List Byte) : Word :=
  crcFold Config.crcInit s

/-- One input bit of the bit-serial form: `t = r[15] xor d`, shift, and the polynomial if `t = 1` (R119). -/
def crcBit (r : Word) (d : Bool) : Word :=
  if xor (r.getLsbD 15) d then (r <<< 1) ^^^ Config.poly else r <<< 1

/-- The eight bits of a byte from bit 7 down to bit 0 (R119). -/
def bitsOfByte (b : Byte) : List Bool :=
  [b.getLsbD 7, b.getLsbD 6, b.getLsbD 5, b.getLsbD 4, b.getLsbD 3, b.getLsbD 2, b.getLsbD 1, b.getLsbD 0]

/-- The bit-serial checksum of a byte sequence (R119). -/
def crc16Serial (s : List Byte) : Word :=
  (s.flatMap bitsOfByte).foldl crcBit Config.crcInit

end Sys2Proof.Machine
end

