-- ==== Sys2Proof/Machine/Checksum.lean ====
section
/-! DEFINITION. The checksum unit's operations: `CRC.INIT` (40_crc.md R114) and `CRC.BYTE` (R115). Neither
writes `STATUS` and neither can fail. -/

namespace Sys2Proof.Machine

/-- `CRC.INIT` (R114): `CRC <- 0xFFFF`. -/
def execCrcInit (s : State) : Host.Outcome State Fault Refusal :=
  .next (s.setCrc Config.crcInit)

/-- `CRC.BYTE b` (R115): `CRC <- crc_byte(CRC, b)`, from whatever `CRC` holds. -/
def execCrcByte (b : Byte) (s : State) : Host.Outcome State Fault Refusal :=
  .next (s.setCrc (crcByte s.crc b))

end Sys2Proof.Machine
end

