-- ==== Sys2Proof/Machine/Decoder.lean ====
section
/-! DEFINITION. The decoder's operation `DEC` (42_decode.md R143), its pseudocode line by line; the order of
the checks is R144's. -/

namespace Sys2Proof.Machine

/-- The loop of R143 over `k` payload bytes from index `i`: take `RXBUF[4 + i]` into the checksum. -/
def decPayloadCrc : (k i : Nat) → State → Word → Word
  | 0, _, _, r => r
  | k + 1, i, s, r => decPayloadCrc k (i + 1) s (crcByte r (s.memRead .rxbuf (4 + i)))

/-- `N = {RXBUF[2], RXBUF[3]}`, the declared length (R143). -/
def decDeclared (s : State) : Word :=
  join (s.memRead .rxbuf 2) (s.memRead .rxbuf 3)

/-- The checksum `DEC` recomputes over the body, from `0xFFFF` (R143). -/
def decComputed (s : State) : Word :=
  let N := decDeclared s
  decPayloadCrc N.toNat 0 s
    (crcByte (crcByte (crcByte Config.crcInit (s.memRead .rxbuf 1)) (hi8 N)) (lo8 N))

/-- The checksum received, at offsets `4 + N` and `5 + N` (R143, R146; 90_conflicts.md C1). -/
def decReceived (s : State) : Word :=
  join (s.memRead .rxbuf (4 + (decDeclared s).toNat)) (s.memRead .rxbuf (5 + (decDeclared s).toNat))

/-- `DEC` (R143). -/
def execDec (s : State) : Host.Outcome State Fault Refusal :=
  let L := s.rxlen.toNat
  let s0 := (s.setRcmd 0).setRlen 0
  if L > Config.rxcap then .next (s0.report .stRxlen)
  else if L < Config.minFrame then .next (s0.report .stShort)
  else if s0.memRead .rxbuf 0 ≠ Config.start then .next (s0.report .stMarker)
  else
    let cmd := s0.memRead .rxbuf 1
    let N := decDeclared s0
    if Config.overhead + N.toNat > L then .next (s0.report .stTrunc)
    else
      let r := decComputed s0
      let s1 := s0.setCrc r
      if r ≠ decReceived s0 then .next (s1.report .stCrc)
      else .next (((s1.setRcmd cmd).setRlen N).report .stOk)

end Sys2Proof.Machine
end

