-- ==== Sys2Proof/Machine/Encoder.lean ====
section
/-! DEFINITION. The encoder's operation `ENC` (41_encode.md R133), its pseudocode line by line. -/

namespace Sys2Proof.Machine

/-- The loop of R133 over `k` payload bytes from index `i`: read `PBUF[i]`, write it to `TXBUF[4 + i]`, take
it into the running checksum `r`. -/
def encPayload : (k i : Nat) → State → Word → State × Word
  | 0, _, s, r => (s, r)
  | k + 1, i, s, r =>
    let v := s.memRead .pbuf i
    encPayload k (i + 1) (s.memWrite .txbuf (4 + i) v) (crcByte r v)

/-- The four header bytes: marker, command identifier, length high byte first (R133). -/
def encHeader (c : Byte) (n : Word) (s : State) : State :=
  (((s.memWrite .txbuf 0 Config.start).memWrite .txbuf 1 c).memWrite .txbuf 2 (hi8 n)).memWrite .txbuf 3 (lo8 n)

/-- The checksum of the three header bytes it covers, from `0xFFFF` whatever `CRC` held (R133). -/
def encHeaderCrc (c : Byte) (n : Word) : Word :=
  crcByte (crcByte (crcByte Config.crcInit c) (hi8 n)) (lo8 n)

/-- `ENC c` (R133). -/
def execEnc (c : Byte) (s : State) : Host.Outcome State Fault Refusal :=
  let n := s.plen
  if n.toNat > Config.maxPayload then .next ((s.setTxlen 0).report .stOversize)
  else
    let body := encPayload n.toNat 0 (encHeader c n s) (encHeaderCrc c n)
    let r := body.2
    let framed := (body.1.memWrite .txbuf (4 + n.toNat) (hi8 r)).memWrite .txbuf (5 + n.toNat) (lo8 r)
    .next (((framed.setTxlen (6 + n)).setCrc r).report .stOk)

end Sys2Proof.Machine
end

