-- ==== Sys2Proof/Machine/HostInterface.lean ====
section
/-! DEFINITION. The host's moves (43_host_interface.md R161 to R165), the illegal operation word (R172), and
a finite list of moves, which is what the spec calls a program (R171). -/

namespace Sys2Proof.Machine

/-- `ILLEGAL` (R172): report `ST_ILLEGAL`, change nothing else. -/
def execIllegal (s : State) : Host.Outcome State Fault Refusal :=
  .next (s.report .stIllegal)

/-- `ISSUE(W)` (R161): the operation `decode_op(W)` selects, as one step. -/
def issueWord (w : Word) (s : State) : Host.Outcome State Fault Refusal :=
  match decodeOp w with
  | .legal i => exec i s
  | .illegal => execIllegal s

/-- The current value of a register (R165); reading it changes nothing (20_memory.md R57). -/
def State.readReg (s : State) : Reg → Answer
  | .crc => .word s.crc
  | .plen => .word s.plen
  | .txlen => .word s.txlen
  | .rxlen => .word s.rxlen
  | .rcmd => .byte s.rcmd
  | .rlen => .word s.rlen
  | .status => .byte s.status

/-- One host move (R161, R163 to R165). -/
def makeMove (m : Move) (s : State) : Host.Outcome State Fault Refusal :=
  match m with
  | .issue w => issueWord w s
  | .wrPlen v => .next (s.setPlen v)
  | .wrRxlen v => .next (s.setRxlen v)
  | .wrPbuf i b => .next (s.memWrite .pbuf i.val b)
  | .wrRxbuf i b => .next (s.memWrite .rxbuf i.val b)
  | .rdReg r => .next (s.setAnswer (s.readReg r))
  | .rdPbuf i => .next (s.setAnswer (.byte (s.memRead .pbuf i.val)))
  | .rdTxbuf i => .next (s.setAnswer (.byte (s.memRead .txbuf i.val)))
  | .rdRxbuf i => .next (s.setAnswer (.byte (s.memRead .rxbuf i.val)))

/-- One event from outside: a host move, or the reset input (70_reset_and_hazards.md R250). -/
def takeEvent (e : Event) (s : State) : Host.Outcome State Fault Refusal :=
  match e with
  | .move m => makeMove m s
  | .reset => .next s.resetEvent

/-- The step of the machine: take the next event that is still to come. With none the block is idle
(60_exceptions.md R237; log entry 2). -/
def stepEvent (s : State) : Host.Outcome State Fault Refusal :=
  match s.pending with
  | [] => .next s
  | e :: rest => takeEvent e (s.setPending rest)

/-- A finite list of host moves, one after another; "it is over when the last move has been made" (R171). -/
def runMoves : List Move → State → Host.Outcome State Fault Refusal
  | [], s => .next s
  | m :: ms, s =>
    match makeMove m s with
    | .next t => runMoves ms t
    | .fault r => .fault r
    | .refused r => .refused r

/-- Put an operation word where the step finds its next operation: before every event still to come
(log entry 1). -/
def State.issueNext (s : State) (nbits w : Nat) : State :=
  s.setPending (.move (.issue (tableWord nbits w)) :: s.pending)

end Sys2Proof.Machine
end

