-- ==== Sys2Proof/Machine/Step.lean ====
section
/-! DEFINITION. The step function in one place (43_host_interface.md R173). -/

namespace Sys2Proof.Machine

/-- One step: the next event from outside happens. -/
def step (s : State) : Host.Outcome State Fault Refusal :=
  stepEvent s

/-- `s` with the operation word whose bits are `w` issued next: the step takes the first pending event
(log entry 1). Every operation word has 16 bits (30_encoding.md R96). -/
def State.withFetchWord (s : State) (nbits w : Nat) : State :=
  s.issueNext nbits w

end Sys2Proof.Machine
end

