-- ==== Sys2Proof/Machine/Pseudo.lean ====
section
/-! DEFINITION. The pseudo-operations of 30_encoding.md R98: each stands for a list of host moves and adds
nothing. -/

namespace Sys2Proof.Machine

/-- `CRC.SEQ b0, ..., bk-1`: `CRC.INIT`, then one `CRC.BYTE` per byte (R98). -/
def crcSeq (bs : List Byte) : List Move :=
  .issue (encode .crcInit) :: bs.map fun b => .issue (encode (.crcByte b))

/-- `WR PBUF[i], b` for the bytes in order from index `i`; an index outside the buffer has no move. -/
def loadPbufFrom : Nat → List Byte → List Move
  | _, [] => []
  | i, b :: bs => if h : i < Config.pcap then .wrPbuf ⟨i, h⟩ b :: loadPbufFrom (i + 1) bs else []

/-- `LD.PBUF b0, ..., bk-1`, for `k ≤ 1024` (R98). -/
def loadPbuf (bs : List Byte) : List Move :=
  loadPbufFrom 0 bs ++ [.wrPlen (BitVec.ofNat 16 bs.length)]

/-- `WR RXBUF[i], b` for the bytes in order from index `i`; an index outside the buffer has no move. -/
def loadRxFrom : Nat → List Byte → List Move
  | _, [] => []
  | i, b :: bs => if h : i < Config.rxcap then .wrRxbuf ⟨i, h⟩ b :: loadRxFrom (i + 1) bs else []

/-- `LD.RX b0, ..., bk-1`, for `k ≤ 1030` (R98). -/
def loadRx (bs : List Byte) : List Move :=
  loadRxFrom 0 bs ++ [.wrRxlen (BitVec.ofNat 16 bs.length)]

/-- For `k` indexes from `i`: `RD TXBUF[i]` giving `v`, then `WR RXBUF[i], v` (R98). The value `v` is the one
`TXBUF` holds in `s`; no move of the list changes `TXBUF`. -/
def loopbackFrom (s : State) : (k i : Nat) → List Move
  | 0, _ => []
  | k + 1, i =>
    if h : i < Config.rxcap then
      .rdTxbuf ⟨i, h⟩ :: .wrRxbuf ⟨i, h⟩ (s.memRead .txbuf i) :: loopbackFrom s k (i + 1)
    else []

/-- `LOOPBACK`: the encoded frame into the candidate buffer, then `WR RXLEN, TXLEN` (R98). -/
def loopback (s : State) : List Move :=
  loopbackFrom s s.txlen.toNat 0 ++ [.wrRxlen s.txlen]

end Sys2Proof.Machine
end

