-- ==== Sys2Proof/Machine/Serializer.lean ====
section
/-! DEFINITION. SOFTWARE OUTSIDE THE BLOCK (00_scope.md R5, 45_payload_software.md R180): the payload
serializer (R181 to R187). It holds no state of the block; to the block a payload is bytes. -/

namespace Sys2Proof.Machine

/-- A payload under construction: "a growable buffer capped at a maximum size" (R181). The write cursor is the
length of `bytes`. -/
structure Builder where
  max : Nat
  bytes : List Byte
  deriving DecidableEq, Repr

/-- A new builder, with the default maximum unless another is configured (R181). -/
def newBuilder (max : Nat := Config.serializerMax) : Builder :=
  ⟨max, []⟩

/-- Every append: it fails, with "no partial write", when the size would exceed the maximum (R183). -/
def appendBytes (p : Builder) (bs : List Byte) : Builder × Bool :=
  if p.bytes.length + bs.length > p.max then (p, false)
  else ({ p with bytes := p.bytes ++ bs }, true)

/-- The big-endian bytes of a 32-bit pattern, most significant first (R182). -/
def bytesOf32 (v : BitVec 32) : List Byte :=
  [v.extractLsb' 24 8, v.extractLsb' 16 8, v.extractLsb' 8 8, v.extractLsb' 0 8]

/-- `add_u8(v)` (R182). -/
def addU8 (p : Builder) (v : Byte) : Builder × Bool :=
  appendBytes p [v]

/-- `add_u16(v)`: `v[15:8]`, then `v[7:0]` (R182). -/
def addU16 (p : Builder) (v : Word) : Builder × Bool :=
  appendBytes p [hi8 v, lo8 v]

/-- `add_i16(v)` (R182): two's complement, PRESUMED (93_implementation_defined.md G1, log entry 18). The rule
covers values of the width; what an integer outside it gives is not stated (91_not_in_source.md N14). -/
def addI16 (p : Builder) (v : Word) : Builder × Bool :=
  addU16 p v

/-- `add_i32(v)` (R182): as `add_i16`, four bytes. -/
def addI32 (p : Builder) (v : BitVec 32) : Builder × Bool :=
  appendBytes p (bytesOf32 v)

/-- `add_f32(v)`: the IEEE-754 single precision pattern, sign and exponent byte first (R184). Rounding to
single precision is not stated (N14): the argument is the pattern itself (log entry 18). The treatment of NaN payloads is
not stated either (R184, N14): every NaN pattern is appended bit for bit, DESIGN CHOICE, log entry 22. -/
def addF32 (p : Builder) (v : BitVec 32) : Builder × Bool :=
  appendBytes p (bytesOf32 v)

/-- The UTF-8 encoding of a character: PRESUMED, the standard's, which the source names and does not
print (R185, log entry 18). -/
def utf8OfChar (c : Char) : List Byte :=
  let n := c.toNat
  let tail (k : Nat) : Byte := BitVec.ofNat 8 (0x80 + n / 64 ^ k % 64)
  if n < 0x80 then [BitVec.ofNat 8 n]
  else if n < 0x800 then [BitVec.ofNat 8 (0xC0 + n / 64), tail 0]
  else if n < 0x10000 then [BitVec.ofNat 8 (0xE0 + n / 4096), tail 1, tail 0]
  else [BitVec.ofNat 8 (0xF0 + n / 262144), tail 2, tail 1, tail 0]

/-- The UTF-8 encoding of a text. -/
def utf8 (text : List Char) : List Byte :=
  text.flatMap utf8OfChar

/-- `add_string(s)`: one length byte, then the UTF-8 bytes; rejected when they are over 255 or do not fit
together with the length byte (R185). -/
def addString (p : Builder) (text : List Char) : Builder × Bool :=
  let k := (utf8 text).length
  if k > 255 then (p, false) else appendBytes p (BitVec.ofNat 8 k :: utf8 text)

/-- `add_bytes(b)`: raw bytes, no prefix (R186). -/
def addBytes (p : Builder) (bs : List Byte) : Builder × Bool :=
  appendBytes p bs

/-- `finalize()`: the bytes so far, read and not consumed (R187). -/
def finalizePayload (p : Builder) : List Byte :=
  p.bytes

end Sys2Proof.Machine
end

