-- ==== Sys2Proof/Machine/Deserializer.lean ====
section
/-! DEFINITION. SOFTWARE OUTSIDE THE BLOCK (00_scope.md R5, 45_payload_software.md R180): the payload
deserializer (R190 to R195). -/

namespace Sys2Proof.Machine

/-- "an immutable byte buffer and a zero-based read cursor" (R190). -/
structure Cursor where
  buf : List Byte
  pos : Nat
  deriving DecidableEq, Repr

/-- A cursor at the start of a buffer (R190). -/
def newCursor (buf : List Byte) : Cursor :=
  ⟨buf, 0⟩

/-- `remaining()`: "`buffer length - cursor`" (R194). -/
def remaining (c : Cursor) : Nat :=
  c.buf.length - c.pos

/-- `read_bytes(n)` (R194), and the one place bytes are taken: the boundary check precedes the read (R195); a
failed read leaves the cursor and answers an absence (R190). -/
def readBytes (c : Cursor) (n : Nat) : Cursor × Option (List Byte) :=
  if n ≤ remaining c then ({ c with pos := c.pos + n }, some (slice c.buf c.pos (c.pos + n)))
  else (c, none)

/-- The unsigned number of a byte sequence, big-endian. -/
def bigEndian (bs : List Byte) : Nat :=
  bs.foldl (fun a b => a * 256 + b.toNat) 0

/-- A read of `n` bytes as one big-endian value. -/
def readValue (c : Cursor) (n : Nat) : Cursor × Option (BitVec (8 * n)) :=
  let r := readBytes c n
  (r.1, r.2.map fun bs => BitVec.ofNat (8 * n) (bigEndian bs))

/-- `read_u8` (R191). -/
def readU8 (c : Cursor) : Cursor × Option Byte :=
  readValue c 1

/-- `read_u16` (R191). -/
def readU16 (c : Cursor) : Cursor × Option Word :=
  readValue c 2

/-- `read_i16`: two's complement, PRESUMED (R191, 93_implementation_defined.md G1, log entry 18). -/
def readI16 (c : Cursor) : Cursor × Option Int :=
  let r := readValue c 2
  (r.1, r.2.map BitVec.toInt)

/-- `read_i32` (R191): as `read_i16`, four bytes. -/
def readI32 (c : Cursor) : Cursor × Option Int :=
  let r := readValue c 4
  (r.1, r.2.map BitVec.toInt)

/-- `read_f32` (R193): the IEEE-754 single precision pattern. The treatment of NaN payloads is not stated (R184, N14):
every NaN pattern is answered bit for bit, DESIGN CHOICE, log entry 22. -/
def readF32 (c : Cursor) : Cursor × Option (BitVec 32) :=
  readValue c 4

/-- The value of the six low bits of a continuation byte. -/
def utf8Tail (b : Byte) : Nat :=
  b.toNat % 64

/-- The code point and length a lead byte and the bytes after it would encode. -/
def utf8Candidate : List Byte → Option (Nat × Nat)
  | [] => none
  | a :: s =>
    let n := a.toNat
    if n < 0x80 then some (n, 1)
    else if n < 0xE0 then some (n % 32 * 64 + utf8Tail (byteAt s 0), 2)
    else if n < 0xF0 then some ((n % 16 * 64 + utf8Tail (byteAt s 0)) * 64 + utf8Tail (byteAt s 1), 3)
    else some (((n % 8 * 64 + utf8Tail (byteAt s 0)) * 64 + utf8Tail (byteAt s 1)) * 64 + utf8Tail (byteAt s 2), 4)

/-- The character whose encoding the bytes begin with, if there is one, and the length of that encoding. A candidate
counts only when encoding it gives the very bytes back. -/
def utf8Head (bs : List Byte) : Option (Char × Nat) :=
  match utf8Candidate bs with
  | none => none
  | some (n, k) => if utf8OfChar (Char.ofNat n) = bs.take k then some (Char.ofNat n, k) else none

/-- The markers that stand for a stretch of bytes in which no character's encoding starts: none for no byte, else at
least one and at most one a byte (R192, log entry 18). -/
def markersFor : List Byte → List Char
  | [] => []
  | b :: bad => List.replicate (1 + Config.invalidSequences (b :: bad) % (b :: bad).length) Config.replacementMarker

/-- The text of a byte span, read in at most `fuel` steps, with the invalid stretch `bad` just before it. -/
def textFrom : (fuel : Nat) → (bad : List Byte) → List Byte → List Char
  | _, bad, [] => markersFor bad
  | 0, bad, _ :: _ => markersFor bad
  | fuel + 1, bad, b :: s =>
    match utf8Head (b :: s) with
    | some (c, k) => markersFor bad ++ c :: textFrom fuel [] ((b :: s).drop k)
    | none => textFrom fuel (bad ++ [b]) s

/-- A byte span as UTF-8 text, "substituting a replacement marker for invalid sequences rather than failing the whole
read" (R192): every valid sequence gives its character. Each step takes a byte or more, so the span's length is
fuel enough. -/
def textOf (bs : List Byte) : List Char :=
  textFrom bs.length [] bs

/-- `read_string` (R192): one length byte, then that many bytes as text. In both failure cases the cursor stays
where it was before the length byte (90_conflicts.md C8). -/
def readString (c : Cursor) : Cursor × Option (List Char) :=
  match readU8 c with
  | (_, none) => (c, none)
  | (c1, some k) =>
    match readBytes c1 k.toNat with
    | (_, none) => (c, none)
    | (c2, some bs) => (c2, some (textOf bs))

end Sys2Proof.Machine
end

