-- ==== Sys2Proof/Machine/Frame.lean ====
section
/-! DEFINITION. The frame: the source's `encode` (41_encode.md R130, R131) and `decode` (42_decode.md R140,
R141) as functions of byte sequences, and the well-formed frame (30_encoding.md R80 to R86). -/

namespace Sys2Proof.Machine

/-- What `frame_encode` gives (R131). -/
inductive Encoded where
  | oversize
  | frame (f : List Byte)
  deriving DecidableEq, Repr

/-- Which of the source's numbered checks rejected (R141). -/
inductive Reject where
  | short
  | marker
  | trunc
  | crc
  deriving DecidableEq, Repr

/-- What `frame_decode` gives (R141). -/
inductive Parsed where
  | reject (r : Reject)
  | accept (cmd : Byte) (payload : List Byte)
  deriving DecidableEq, Repr

/-- The body of a frame: command identifier, two length bytes, payload (R131, R85). -/
def frameBody (cmd : Byte) (p : List Byte) : List Byte :=
  let n : Word := BitVec.ofNat 16 p.length
  [cmd, hi8 n, lo8 n] ++ p

/-- `frame_encode(cmd, p)` (R131). -/
def frameEncode (cmd : Byte) (p : List Byte) : Encoded :=
  if p.length > Config.maxPayload then .oversize
  else
    let body := frameBody cmd p
    let c := crc16 body
    .frame ([Config.start] ++ body ++ [hi8 c, lo8 c])

/-- The declared payload length `{f[2], f[3]}` (R82). -/
def declaredLength (f : List Byte) : Nat :=
  (join (byteAt f 2) (byteAt f 3)).toNat

/-- `frame_decode(b)`, check by check (R141); `6 + N` is a sum of naturals and does not wrap (R142). -/
def frameDecode (b : List Byte) : Parsed :=
  let L := b.length
  if L < Config.minFrame then .reject .short
  else if byteAt b 0 ≠ Config.start then .reject .marker
  else
    let cmd := byteAt b 1
    let N := declaredLength b
    if Config.overhead + N > L then .reject .trunc
    else
      let c := crc16 (slice b 1 (4 + N))
      let rx := join (byteAt b (4 + N)) (byteAt b (5 + N))
      if c ≠ rx then .reject .crc
      else .accept cmd (slice b 4 (4 + N))

/-- The status code named after a reject tag (R143). -/
def Reject.code : Reject → Code
  | .short => .stShort
  | .marker => .stMarker
  | .trunc => .stTrunc
  | .crc => .stCrc

/-- A well-formed frame (30_encoding.md R86). -/
def wellFormedFrame (f : List Byte) : Bool :=
  decide (Config.minFrame ≤ f.length) && byteAt f 0 == Config.start &&
    decide (f.length = Config.overhead + declaredLength f) &&
    join (byteAt f (4 + declaredLength f)) (byteAt f (5 + declaredLength f)) ==
      crc16 (slice f 1 (4 + declaredLength f))

/-- A frame of the protocol: well formed, with `N ≤ 1024` (30_encoding.md R86). -/
def frameOfProtocol (f : List Byte) : Bool :=
  wellFormedFrame f && decide (declaredLength f ≤ Config.maxPayload)

end Sys2Proof.Machine
end

