-- ==== Sys2Proof/Machine/Vocabulary.lean ====
section
/-! DEFINITION. SOFTWARE OUTSIDE THE BLOCK (00_scope.md R5, 45_payload_software.md R180): the command vocabulary
and its values, the error codes, and the payload layouts of the source's scenarios (R200 to R204). -/

namespace Sys2Proof.Machine

/-- The subsystem a member belongs to (R200). -/
def commandGroup : Command → Subsystem
  | .ping => .system
  | .pong => .system
  | .error => .system
  | .ack => .system
  | .ledBlink => .led
  | .encoderData => .rotaryEncoder
  | .oledText => .display
  | .unnamed group _ => group

/-- The byte of a member: the four values the source prints, and free values for all others (R200, log entry 20). -/
def commandValue : Command → Byte
  | .ping => 0x01
  | .ledBlink => 0x11
  | .encoderData => 0x31
  | .oledText => 0x41
  | .pong => Config.openCommandValue .pong
  | .error => Config.openCommandValue .error
  | .ack => Config.openCommandValue .ack
  | .unnamed group k => Config.openCommandValue (.unnamed group k)

/-- The parsed record of encoder data (R203). -/
structure EncoderData where
  position : Int
  velocity : Byte
  buttonPressed : Bool
  deriving DecidableEq, Repr

/-- The payload of a ping: empty (R204). -/
def pingPayload : List Byte :=
  finalizePayload newBuilder

/-- The payload of LED-blink: the duration (R204). -/
def ledBlinkPayload (duration : Word) : List Byte :=
  finalizePayload (addU16 newBuilder duration).1

/-- The payload of OLED text: `u8`, `u8`, string (R204). DESIGN CHOICE, log entry 19: when the string is refused
(R185) there is no payload; the source states the failure of `add_string` and not what the builder then answers. -/
def oledTextPayload (x y : Byte) (text : List Char) : Option (List Byte) :=
  let p := addString (addU8 (addU8 newBuilder x).1 y).1 text
  if p.2 then some (finalizePayload p.1) else none

/-- The payload of encoder data: `i16` position, `u8` velocity, `u8` button (R204). -/
def encoderDataPayload (position : Word) (velocity button : Byte) : List Byte :=
  finalizePayload (addU8 (addU8 (addI16 newBuilder position).1 velocity).1 button).1

/-- A builder is its payload "followed by §4.4 `encode`" (R201): the ping frame. -/
def pingFrame : Encoded :=
  frameEncode (commandValue .ping) pingPayload

/-- The LED-blink frame (R201, R204). -/
def ledBlinkFrame (duration : Word) : Encoded :=
  frameEncode (commandValue .ledBlink) (ledBlinkPayload duration)

/-- The OLED-text frame (R201, R204). DESIGN CHOICE, log entry 19: no frame when the string is refused. -/
def oledTextFrame (x y : Byte) (text : List Char) : Option Encoded :=
  (oledTextPayload x y text).map (frameEncode (commandValue .oledText))

/-- The encoder-data frame (R201, R204). -/
def encoderDataFrame (position : Word) (velocity button : Byte) : Encoded :=
  frameEncode (commandValue .encoderData) (encoderDataPayload position velocity button)

/-- Append an error code to a payload: its single byte, as `add_u8` (R202, R182). -/
def addErrorCode (p : Builder) (e : ErrorCode) : Builder × Bool :=
  addU8 p (Config.errorCodeValue e)

/-- An error-reporting frame (R202): a frame of the `error` command whose payload has the code's byte in it. What else
the payload holds, and where, is not in the source (91_not_in_source.md N23): the bytes before and after are
arguments. That the command is `error` is DEDUCED (log entry 21). There is no frame when an append fails
(DESIGN CHOICE, log entry 19). -/
def errorFrame (before after : List Byte) (e : ErrorCode) : Option Encoded :=
  let p := addBytes newBuilder before
  let q := addErrorCode p.1 e
  let r := addBytes q.1 after
  if p.2 && q.2 && r.2 then some (frameEncode (commandValue .error) (finalizePayload r.1)) else none

/-- Parse encoder data (R201, R204): the position is mandatory, a missing button byte gives "not pressed", a
missing velocity byte is left open (log entry 18). Any button byte but 0 counts as pressed (DESIGN CHOICE,
log entry 18: the scenario shows 1 only). -/
def parseEncoderData (payload : List Byte) : Option EncoderData :=
  match readI16 (newCursor payload) with
  | (_, none) => none
  | (c, some position) =>
    match readU8 c with
    | (_, none) => Config.missingVelocity.map fun v => ⟨position, v, false⟩
    | (afterVelocity, some velocity) =>
      match readU8 afterVelocity with
      | (_, none) => some ⟨position, velocity, false⟩
      | (_, some button) => some ⟨position, velocity, button != 0⟩

end Sys2Proof.Machine
end

