-- ==== Sys2Proof/Safety.lean ====
section
/-! DEFINITION. What holds of every reachable state (10_state.md R36, 41_encode.md R134 and R135,
60_exceptions.md R226), and what a safe step is (43_host_interface.md R173). -/

namespace Sys2Proof.Machine

/-- 10_state.md R36 (d), "if the last reporting operation was a `DEC` and `STATUS ≠ ST_OK` then `RCMD = 0` and
`RLEN = 0`". Codes 2 to 6 are reported by `DEC` and by nothing else (R29), so the code says who reported
last (DEDUCED, log entry 12). -/
abbrev State.rejectCleared (s : State) : Prop :=
  (s.status = Code.stShort.value ∨ s.status = Code.stMarker.value ∨ s.status = Code.stTrunc.value ∨
    s.status = Code.stCrc.value ∨ s.status = Code.stRxlen.value) → s.rcmd = 0 ∧ s.rlen = 0

/-- The invariants of every reachable state, 10_state.md R36 (a) to (d). -/
structure State.Legal (s : State) : Prop where
  statusReserved : s.statusReserved = 0
  txlen : s.txlen = 0 ∨ 6 ≤ s.txlen.toNat ∧ s.txlen.toNat ≤ Config.txcap
  rlen : s.rlen.toNat ≤ Config.rxcap - Config.overhead
  rejectCleared : s.rejectCleared

/-- "a failing `ENC` leaves `TXLEN = 0`" (60_exceptions.md R226): while `STATUS` still says `ST_OVERSIZE` no
frame is offered. -/
abbrev State.oversizeCleared (s : State) : Prop :=
  s.status = Code.stOversize.value → s.txlen = 0

/-- The frame offered in `TXBUF[0 .. TXLEN)` is a frame of the protocol, or none is offered
(41_encode.md R134, R135). -/
def State.txFrame (s : State) : Prop :=
  s.txlen = 0 ∨ frameOfProtocol (s.bytes .txbuf 0 s.txlen.toNat) = true

/-- The three buffers are in canonical form and list only indexes of their own range (20_memory.md R50,
R58; log entry 4). -/
def State.memWf (s : State) : Bool :=
  (s.pbuf.wf && s.pbuf.within Config.pcap) && (s.txbuf.wf && s.txbuf.within Config.txcap) &&
    (s.rxbuf.wf && s.rxbuf.within Config.rxcap)

/-- A safe step: it answers a next state (43_host_interface.md R173: "It has no fault outcome, no refusal
outcome and no stuck state"). -/
def State.stepsSafely (s : State) : Prop :=
  ∃ t, step s = .next t

end Sys2Proof.Machine
end

