-- ==== Sys2Proof/Certificates/Slice0/Obligations.lean ====
section
/-! DEFINITION. The statements for the provers. Each docstring names the rule of spec/ it formalises. -/

namespace Sys2Proof.Claim

open Sys2Proof Sys2Proof.Machine

/-- What stands outside the block is unchanged: the events still to come, the value last read, and the number
of the reset whose draw the unwritten bytes hold. -/
def OutsideKept (s t : State) : Prop :=
  t.pending = s.pending ∧ t.answer = s.answer ∧ t.draw = s.draw

/-- Every byte of one buffer reads as before. -/
def BufferKept (B : Buf) (s t : State) : Prop :=
  ∀ i, t.memRead B i = s.memRead B i

/-- All seven registers are unchanged. -/
def RegistersKept (s t : State) : Prop :=
  t.crc = s.crc ∧ t.plen = s.plen ∧ t.txlen = s.txlen ∧ t.rxlen = s.rxlen ∧ t.rcmd = s.rcmd ∧ t.rlen = s.rlen ∧
    t.status = s.status

/-- The first event has been taken, and nothing else outside the block has changed. -/
def EventTaken (es : List Event) (s t : State) : Prop :=
  t.pending = es ∧ t.answer = s.answer ∧ t.draw = s.draw

/-- Every register but `CRC`, every byte of the three buffers and what stands outside are unchanged. -/
def OnlyCrc (s t : State) : Prop :=
  t.plen = s.plen ∧ t.txlen = s.txlen ∧ t.rxlen = s.rxlen ∧ t.rcmd = s.rcmd ∧ t.rlen = s.rlen ∧
    t.status = s.status ∧ (∀ B, BufferKept B s t) ∧ OutsideKept s t

/-- `DEC` ended with a reject: its code, `RCMD` and `RLEN` 0, and what `CRC` holds (60_exceptions.md R221). -/
def Rejected (t : State) (code : Byte) (crc : Word) : Prop :=
  t.status = code ∧ t.rcmd = 0 ∧ t.rlen = 0 ∧ t.crc = crc

/-- The next event issues a word that selects an operation with property `p`. -/
def Issues (s : State) (p : Instr → Prop) : Prop :=
  ∃ w i es, s.pending = .move (.issue w) :: es ∧ decodeOp w = .legal i ∧ p i

/-- The next event issues a word that selects no operation. -/
def IssuesIllegal (s : State) : Prop :=
  ∃ w es, s.pending = .move (.issue w) :: es ∧ decodeOp w = .illegal

/-- The next event is the host move `m`. -/
def Moves (s : State) (m : Move) : Prop :=
  ∃ es, s.pending = .move m :: es

/-- The next event is the reset input. -/
def Resets (s : State) : Prop :=
  ∃ es, s.pending = .reset :: es

/-- A move that neither restarts the checksum nor replaces it: `CRC.BYTE`, an illegal word, a host write or
read (40_crc.md R116). -/
def KeepsChecksum : Move → Prop
  | .issue w => ∀ i, decodeOp w = .legal i → ∃ b, i = .crcByte b
  | _ => True

/-- The bytes that the `CRC.BYTE` operations of a list of moves hand over, in order. -/
def dataBytes : List Move → List Byte
  | [] => []
  | .issue w :: ms =>
    match decodeOp w with
    | .legal (.crcByte b) => b :: dataBytes ms
    | _ => dataBytes ms
  | _ :: ms => dataBytes ms

/-- What an append of the bytes `bs` answers: they stand at the end when they fit, else nothing is written
(45_payload_software.md R183). -/
def AppendOf (p : Builder) (bs : List Byte) : Builder × Bool :=
  if p.bytes.length + bs.length ≤ p.max then (⟨p.max, p.bytes ++ bs⟩, true) else (p, false)

/-- A read of `n` bytes that answers a value and advances by `n` when `n` bytes remain, else leaves the cursor and
answers nothing (45_payload_software.md R190). -/
def ReadsWholeOrNothing {α : Type} (c : Cursor) (n : Nat) (r : Cursor × Option α) : Prop :=
  if n ≤ c.buf.length - c.pos then r.1 = ⟨c.buf, c.pos + n⟩ ∧ r.2.isSome = true else r.1 = c ∧ r.2.isNone = true

end Sys2Proof.Claim

open Sys2Proof Sys2Proof.Machine Sys2Proof.Claim

/-! ## The checksum unit -/

/-- 40_crc.md R114, `CRC.INIT`: it completes in every state, sets `CRC` to `0xFFFF` and writes nothing else;
from `CRC = 0xFFFF` it changes nothing. -/
def Obligations.CrcInitSetsCrcAndNothingElse : Prop :=
  ∀ s : State, ∃ t, exec .crcInit s = .next t ∧ t.crc = 0xFFFF ∧ OnlyCrc s t ∧ (s.crc = 0xFFFF → t = s)

/-- 40_crc.md R115 with R112, `CRC.BYTE b`: it completes in every state and with every byte; `CRC` becomes
`crc_byte(CRC, b)`, the byte exclusive-ored into bits 15 to 8 and then exactly eight rounds; nothing else is
written, `STATUS` among it. -/
def Obligations.CrcByteFoldsOneByteIntoCrc : Prop :=
  ∀ (b : Byte) (s : State), ∃ t, exec (.crcByte b) s = .next t ∧
    t.crc = crcRound^[8] (s.crc ^^^ (b.setWidth 16 <<< 8)) ∧ OnlyCrc s t

/-- 40_crc.md R111, one round as exact arithmetic on numbers, masked to 16 bits. -/
def Obligations.CrcRoundIsShiftXorAndMask : Prop :=
  ∀ r : Word, (crcRound r).toNat =
    if 2 ^ 15 ≤ r.toNat then ((r.toNat <<< 1) ^^^ 0x1021) % 2 ^ 16 else (r.toNat <<< 1) % 2 ^ 16

/-- 40_crc.md R113: `crc16(s)` is the last of the values `c0 = 0xFFFF`, `c(i+1) = crc_byte(ci, s[i])`. -/
def Obligations.ChecksumIsTheRunningValueAfterTheLastByte : Prop :=
  ∀ s : List Byte, ∃ c : Nat → Word, c 0 = 0xFFFF ∧ (∀ i b, s[i]? = some b → c (i + 1) = crcByte (c i) b) ∧
    crc16 s = c s.length

/-- 40_crc.md R119, an inference the spec marks as its own: the bit-serial form gives the same checksum. -/
def Obligations.BitSerialFormGivesTheSameChecksum : Prop :=
  ∀ s : List Byte, crc16Serial s = crc16 s

/-- 40_crc.md R120 (b), general knowledge by the spec's own mark: a checksum appended high byte first makes the
checksum of the whole 0. -/
def Obligations.AppendedChecksumLeavesResidueZero : Prop :=
  ∀ s : List Byte, crc16 (s ++ [hi8 (crc16 s), lo8 (crc16 s)]) = 0

/-- 40_crc.md R120 (a), an inference the spec marks as its own: for a fixed byte, one byte's step is a bijection
of the register values. -/
def Obligations.CrcByteIsABijectionOfTheRegister : Prop :=
  ∀ b : Byte, Function.Bijective fun r : Word => crcByte r b

/-- 40_crc.md R120 (c), general knowledge by the spec's own mark, here for a change of one byte, which includes a
change of exactly one bit: the checksum always changes. -/
def Obligations.ChangingOneByteChangesTheChecksum : Prop :=
  ∀ (before after : List Byte) (b b' : Byte), b ≠ b' →
    crc16 (before ++ b :: after) ≠ crc16 (before ++ b' :: after)

/-- 40_crc.md R115, corner case: "the only register values a zero byte leaves unchanged are `0x0000` and
`0xF01F`". -/
def Obligations.ZeroByteKeepsExactlyTwoRegisterValues : Prop :=
  ∀ r : Word, crcByte r 0x00 = r ↔ r = 0x0000 ∨ r = 0xF01F

/-- 40_crc.md R116, an inference the spec marks as its own: from any state, `CRC.INIT` and then any moves among
which no `CRC.INIT`, `ENC` or `DEC` stands leave in `CRC` the checksum of the bytes handed over by `CRC.BYTE`;
illegal words and host reads and writes in between do not disturb it. -/
def Obligations.ChecksumThroughOperationsIsCrc16 : Prop :=
  ∀ (s : State) (ms : List Move), (∀ m ∈ ms, KeepsChecksum m) →
    ∃ t, runMoves (.issue 0x1000 :: ms) s = .next t ∧ t.crc = crc16 (dataBytes ms)

/-! ## Operation words -/

/-- 30_encoding.md R91 and R97: every well-formed operation is read back from its word with every value of its
immediate, and a word that selects an operation is that operation's word. -/
def Obligations.DecodeInvertsEncode : Prop :=
  (∀ i : Instr, i.wellFormed = true → decodeOp (encode i) = .legal i) ∧
  (∀ (w : Word) (i : Instr), decodeOp w = .legal i → i.wellFormed = true ∧ encode i = w)

/-- 30_encoding.md R93 and R92: `0x1000` and `0x4000` are the only words of `CRC.INIT` and `DEC`; a word selects
`CRC.BYTE` or `ENC` exactly when its `opc` is 2 or 3 and its `zero` field is 0, and the immediate is `W[7:0]`. -/
def Obligations.WordsThatSelectEachOperation : Prop :=
  ∀ w : Word,
    (decodeOp w = .legal .crcInit ↔ w = 0x1000) ∧ (decodeOp w = .legal .dec ↔ w = 0x4000) ∧
    (∀ b : Byte, decodeOp w = .legal (.crcByte b) ↔
      w.toNat / 4096 = 2 ∧ w.toNat / 256 % 16 = 0 ∧ w.toNat % 256 = b.toNat) ∧
    (∀ c : Byte, decodeOp w = .legal (.enc c) ↔
      w.toNat / 4096 = 3 ∧ w.toNat / 256 % 16 = 0 ∧ w.toNat % 256 = c.toNat)

/-- 30_encoding.md R95 and R90: the words that select nothing are those with `opc` 0 or above 4, with a non-zero
`zero` field, or with `opc` 1 or 4 and a non-zero immediate. -/
def Obligations.IllegalWordsAreExactlyTheRest : Prop :=
  ∀ w : Word, decodeOp w = .illegal ↔
    w.toNat / 4096 = 0 ∨ 4 < w.toNat / 4096 ∨ w.toNat / 256 % 16 ≠ 0 ∨
      ((w.toNat / 4096 = 1 ∨ w.toNat / 4096 = 4) ∧ w.toNat % 256 ≠ 0)

/-- 95_test_vectors.md section 2.4, words written out from the patterns of 30_encoding.md R91. -/
def Obligations.SampleWordsDecodeAsTheMapSays : Prop :=
  decodeOp 0b0001000000000000 = .legal .crcInit ∧ decodeOp 0b0010000011111111 = .legal (.crcByte 0xFF) ∧
  decodeOp 0b0011000000010001 = .legal (.enc 0x11) ∧ decodeOp 0b0100000000000000 = .legal .dec ∧
  decodeOp 0b0011111100010001 = .illegal ∧ decodeOp 0b0001000000000001 = .illegal

/-! ## Issue, the illegal word, the step -/

/-- 43_host_interface.md R161: an issued word performs, as the one step, the operation `decode_op` selects, on the
state from which the event has been taken (`pending` is the model's own field, log entry 1); it is defined in
every state. -/
def Obligations.StepPerformsTheIssuedOperation : Prop :=
  ∀ (s : State) (w : Word) (es : List Event), s.pending = .move (.issue w) :: es →
    (∀ i, decodeOp w = .legal i → step s = exec i (s.setPending es)) ∧
    (decodeOp w = .illegal → step s = .next ((s.setPending es).report .stIllegal)) ∧
    ∃ t, step s = .next t

/-- The word placed by `withFetchWord` is the very next operation performed, on the state it was placed in
(log entry 1, the model's choice of where a word waits). -/
def Obligations.PlacedWordRunsNext : Prop :=
  ∀ (s : State) (nbits w : Nat) (i : Instr), decodeTableWord nbits w = some i →
    step (s.withFetchWord nbits w) = exec i s

/-- 43_host_interface.md R172, the illegal word: `STATUS = 7`, every other register and every buffer byte
unchanged; the block goes on with the events after it. -/
def Obligations.IllegalWordWritesStatusOnly : Prop :=
  ∀ (s : State) (w : Word) (es : List Event), s.pending = .move (.issue w) :: es → decodeOp w = .illegal →
    ∃ t, step s = .next t ∧ t.status = 7 ∧ RegistersKept { s with status := 7 } t ∧
      (∀ B, BufferKept B s t) ∧ EventTaken es s t

/-- 60_exceptions.md R237 and log entry 2: with no event to come the block is idle. -/
def Obligations.IdleBlockKeepsItsState : Prop :=
  ∀ s : State, s.pending = [] → step s = .next s

/-- 43_host_interface.md R173, an inference the spec marks as its own: the step has no fault, no refusal and no
stuck state, whatever the state and the event. -/
def Obligations.EveryStepAnswersANextState : Prop :=
  ∀ s : State, s.stepsSafely

/-! ## The encoder -/

/-- 41_encode.md R133, `ENC c`, in every state whose `TXBUF` list is canonical: it completes. Above 1024 bytes:
`TXLEN = 0`, `ST_OVERSIZE`, `TXBUF` and `CRC` unchanged. Otherwise `TXBUF[0 .. TXLEN)` is
`frame_encode(c, PBUF[0 .. PLEN))`, `TXLEN = 6 + PLEN`, `CRC` is the checksum of the frame's body, `ST_OK`, and the
bytes of `TXBUF` from `6 + PLEN` on are unchanged. Never written: `PLEN`, `PBUF`, `RXLEN`, `RXBUF`, `RCMD`, `RLEN`. -/
def Obligations.EncWritesTheFrameOrReportsOversize : Prop :=
  ∀ (c : Byte) (s : State), s.txbuf.wf = true →
    ∃ t, exec (.enc c) s = .next t ∧
      t.plen = s.plen ∧ t.rxlen = s.rxlen ∧ t.rcmd = s.rcmd ∧ t.rlen = s.rlen ∧
      BufferKept .pbuf s t ∧ BufferKept .rxbuf s t ∧ OutsideKept s t ∧
      if 1024 < s.plen.toNat then
        t.status = 1 ∧ t.txlen = 0 ∧ t.crc = s.crc ∧ BufferKept .txbuf s t
      else
        t.status = 0 ∧ t.txlen.toNat = 6 + s.plen.toNat ∧
        frameEncode c (s.bytes .pbuf 0 s.plen.toNat) = .frame (t.bytes .txbuf 0 t.txlen.toNat) ∧
        t.crc = crc16 (t.bytes .txbuf 1 (4 + s.plen.toNat)) ∧
        ∀ i, 6 + s.plen.toNat ≤ i → t.memRead .txbuf i = s.memRead .txbuf i

/-- 30_encoding.md R80, R81 and R85: where `ENC` puts each byte of the frame. -/
def Obligations.EncPutsEachFieldAtItsOffset : Prop :=
  ∀ (c : Byte) (s : State), s.txbuf.wf = true → s.plen.toNat ≤ 1024 →
    ∃ t, exec (.enc c) s = .next t ∧
      t.memRead .txbuf 0 = 0xAA ∧ t.memRead .txbuf 1 = c ∧
      (t.memRead .txbuf 2).toNat = s.plen.toNat / 256 ∧ (t.memRead .txbuf 3).toNat = s.plen.toNat % 256 ∧
      (∀ i, i < s.plen.toNat → t.memRead .txbuf (4 + i) = s.memRead .pbuf i) ∧
      t.memRead .txbuf (4 + s.plen.toNat) = hi8 (crc16 (t.bytes .txbuf 1 (4 + s.plen.toNat))) ∧
      t.memRead .txbuf (5 + s.plen.toNat) = lo8 (crc16 (t.bytes .txbuf 1 (4 + s.plen.toNat)))

/-- 41_encode.md R132 and R134, inferences the spec marks as its own: what `frame_encode` gives is a frame of the
protocol with the payload's length. -/
def Obligations.EncodedFrameIsAFrameOfTheProtocol : Prop :=
  ∀ (c : Byte) (p f : List Byte), frameEncode c p = .frame f →
    frameOfProtocol f = true ∧ f.length = 6 + p.length ∧ declaredLength f = p.length ∧ byteAt f 1 = c ∧
      slice f 4 (4 + p.length) = p

/-- 41_encode.md R131: the length test is strict, and it alone decides. -/
def Obligations.FrameEncodeFailsExactlyAbove1024 : Prop :=
  ∀ (c : Byte) (p : List Byte), (frameEncode c p = .oversize ↔ 1024 < p.length) ∧
    (p.length ≤ 1024 → ∃ f, frameEncode c p = .frame f)

/-- 70_reset_and_hazards.md R264, an inference the spec marks as its own: the same `ENC` again, with `PLEN` and
`PBUF` as they are, gives the same `TXBUF[0 .. TXLEN)`, `TXLEN`, `CRC` and `STATUS`. That the bytes of `TXBUF` from
`TXLEN` on are those after the first `ENC` too is not R264's but 41_encode.md R133's: "bytes of `TXBUF` at index
`6 + n` and above keep their old values", and on `ST_OVERSIZE` all of `TXBUF` is unchanged. -/
def Obligations.EncAgainGivesTheSameResult : Prop :=
  ∀ (c : Byte) (s t : State), s.txbuf.wf = true → exec (.enc c) s = .next t →
    ∃ u, exec (.enc c) t = .next u ∧ BufferKept .txbuf t u ∧ u.txlen = t.txlen ∧ u.crc = t.crc ∧ u.status = t.status

/-- 10_state.md R35: `ENC` depends "only on its immediate, `PLEN` and `PBUF[0 .. PLEN)`". -/
def Obligations.EncDependsOnItsOperandsOnly : Prop :=
  ∀ (c : Byte) (s s' : State), s.txbuf.wf = true → s'.txbuf.wf = true → s.plen = s'.plen →
    (∀ i, i < s.plen.toNat → s.memRead .pbuf i = s'.memRead .pbuf i) →
    ∃ t t', exec (.enc c) s = .next t ∧ exec (.enc c) s' = .next t' ∧ t.status = t'.status ∧ t.txlen = t'.txlen ∧
      t.bytes .txbuf 0 t.txlen.toNat = t'.bytes .txbuf 0 t'.txlen.toNat ∧ (t.status = 0 → t.crc = t'.crc)

/-! ## The decoder -/

/-- 42_decode.md R143 and R144, `DEC`, in every state: it completes; the checks are `RXLEN > RXCAP`, too short,
marker, truncation, checksum, in this order, and the first that fires decides; `CRC` is written only when the
length check has passed; never written: `RXLEN`, `RXBUF`, `PLEN`, `PBUF`, `TXLEN`, `TXBUF`. -/
def Obligations.DecReportsTheFirstFailingCheckOrAccepts : Prop :=
  ∀ s : State, ∃ t, exec .dec s = .next t ∧
    t.rxlen = s.rxlen ∧ t.plen = s.plen ∧ t.txlen = s.txlen ∧ (∀ B, BufferKept B s t) ∧ OutsideKept s t ∧
    let L := s.rxlen.toNat
    let N := (s.memRead .rxbuf 2).toNat * 256 + (s.memRead .rxbuf 3).toNat
    let r := crc16 (s.bytes .rxbuf 1 (4 + N))
    let rx := (s.memRead .rxbuf (4 + N)).toNat * 256 + (s.memRead .rxbuf (5 + N)).toNat
    if 1030 < L then Rejected t 6 s.crc
    else if L < 6 then Rejected t 2 s.crc
    else if s.memRead .rxbuf 0 ≠ 0xAA then Rejected t 3 s.crc
    else if L < 6 + N then Rejected t 4 s.crc
    else if r.toNat ≠ rx then Rejected t 5 r
    else t.status = 0 ∧ t.rcmd = s.memRead .rxbuf 1 ∧ t.rlen.toNat = N ∧ t.crc = r

/-- 42_decode.md R143: "When `RXLEN <= RXCAP` the outcome is `frame_decode(RXBUF[0 .. RXLEN))`", the payload in
place. -/
def Obligations.DecOutcomeIsFrameDecode : Prop :=
  ∀ s : State, s.rxlen.toNat ≤ 1030 → ∃ t, exec .dec s = .next t ∧
    match frameDecode (s.bytes .rxbuf 0 s.rxlen.toNat) with
    | .accept cmd p =>
      t.status = 0 ∧ t.rcmd = cmd ∧ t.rlen.toNat = p.length ∧ t.bytes .rxbuf 4 (4 + t.rlen.toNat) = p
    | .reject r => t.status = r.code.value ∧ t.rcmd = 0 ∧ t.rlen = 0

/-- 42_decode.md R146: `ST_OK` exactly when the candidate buffer begins with a well-formed frame; surplus bytes
are ignored and the received checksum stands at `4 + N`. -/
def Obligations.DecAcceptsExactlyBuffersThatBeginWithAFrame : Prop :=
  ∀ s : State, ∃ t, exec .dec s = .next t ∧
    (t.status = 0 ↔ s.rxlen.toNat ≤ 1030 ∧
      ∃ k, k ≤ s.rxlen.toNat ∧ wellFormedFrame (s.bytes .rxbuf 0 k) = true)

/-- 42_decode.md R145, an inference the spec marks as its own: bytes of `RXBUF` at `RXLEN` and above cannot
influence any result of `DEC`; nor can anything but `RXLEN`, and `CRC` where `DEC` leaves it (10_state.md R35). -/
def Obligations.DecDependsOnTheCandidateBufferOnly : Prop :=
  ∀ s s' : State, s.rxlen = s'.rxlen →
    (∀ i, i < s.rxlen.toNat → i < 1030 → s.memRead .rxbuf i = s'.memRead .rxbuf i) →
    ∃ t t', exec .dec s = .next t ∧ exec .dec s' = .next t' ∧ t.status = t'.status ∧ t.rcmd = t'.rcmd ∧
      t.rlen = t'.rlen ∧ (t.crc = t'.crc ∨ t.crc = s.crc ∧ t'.crc = s'.crc)

/-- 42_decode.md R150: issuing `DEC` again with no host write in between gives the same results; no state at all
changes. -/
def Obligations.DecAgainChangesNothing : Prop :=
  ∀ s t : State, exec .dec s = .next t → exec .dec t = .next t

/-- The source's truncation safety (42_decode.md R145): every shorter prefix of an encoded frame is rejected, as too
short below 6 bytes and as truncated from there on. -/
def Obligations.EveryShorterPrefixOfAFrameIsRejected : Prop :=
  ∀ (c : Byte) (p f : List Byte) (k : Nat), frameEncode c p = .frame f → k < f.length →
    frameDecode (f.take k) = .reject (if k < 6 then .short else .trunc)

/-- The source's corruption property (42_decode.md R149, an inference by the spec's own mark), for a change of one byte,
which goes beyond R149's single bit and rests on 40_crc.md R120 (c), general knowledge by the spec's own mark. A changed
byte 0 is rejected as a wrong marker; a change that raises the declared length as truncated; a change outside the
marker and the length bytes as a checksum mismatch. A change that lowers the declared length is judged by the checksum
alone: R149 claims no reject there, and neither does this. -/
def Obligations.ChangedByteIsRejectedUnlessTheLengthFalls : Prop :=
  ∀ (c : Byte) (p f : List Byte) (i : Nat) (b : Byte), frameEncode c p = .frame f → i < f.length →
    b ≠ byteAt f i →
    (i = 0 → frameDecode (f.set i b) = .reject .marker) ∧
    (p.length < declaredLength (f.set i b) → frameDecode (f.set i b) = .reject .trunc) ∧
    (i ≠ 0 → i ≠ 2 → i ≠ 3 → frameDecode (f.set i b) = .reject .crc) ∧
    (declaredLength (f.set i b) < p.length → frameDecode (f.set i b) = .reject .crc ∨
      frameDecode (f.set i b) = .accept c (slice f 4 (4 + declaredLength (f.set i b))))

/-- 42_decode.md R148, the source's round trip of the two functions. -/
def Obligations.FrameDecodeInvertsFrameEncode : Prop :=
  ∀ (c : Byte) (p : List Byte), p.length ≤ 1024 →
    ∃ f, frameEncode c p = .frame f ∧ frameDecode f = .accept c p

/-- 42_decode.md R148 on the block: after an `ENC` that reports `ST_OK`, the pseudo-operation `LOOPBACK` and a `DEC`
give back the command identifier, the length and the payload. -/
def Obligations.EncLoopbackDecReturnsThePayload : Prop :=
  ∀ (c : Byte) (s t : State), s.memWf = true → exec (.enc c) s = .next t → t.status = 0 →
    ∃ u v, runMoves (loopback t) t = .next u ∧ exec .dec u = .next v ∧ v.status = 0 ∧ v.rcmd = c ∧
      v.rlen = s.plen ∧ v.bytes .rxbuf 4 (4 + v.rlen.toNat) = s.bytes .pbuf 0 s.plen.toNat

/-! ## Host moves and reset -/

/-- 43_host_interface.md R163: a write of `PLEN` or `RXLEN` stores any value as given and changes nothing else. -/
def Obligations.HostWritesOfLengthsStoreTheValue : Prop :=
  ∀ (s : State) (v : Word) (es : List Event),
    (s.pending = .move (.wrPlen v) :: es → ∃ t, step s = .next t ∧ t.plen = v ∧
      RegistersKept { s with plen := v } t ∧ (∀ B, BufferKept B s t) ∧ EventTaken es s t) ∧
    (s.pending = .move (.wrRxlen v) :: es → ∃ t, step s = .next t ∧ t.rxlen = v ∧
      RegistersKept { s with rxlen := v } t ∧ (∀ B, BufferKept B s t) ∧ EventTaken es s t)

/-- 43_host_interface.md R164: a write of `PBUF[i]` or `RXBUF[i]` changes that byte, no other byte of any buffer and
no register, `PLEN` and `RXLEN` among them; the lists of written bytes are canonical in the state it starts from. -/
def Obligations.HostWritesOfBufferBytesChangeThatByte : Prop :=
  ∀ (s : State) (b : Byte) (es : List Event), s.memWf = true →
    (∀ i : Fin 1024, s.pending = .move (.wrPbuf i b) :: es → ∃ t, step s = .next t ∧
      (∀ j, t.memRead .pbuf j = if j = i.val then b else s.memRead .pbuf j) ∧
      BufferKept .txbuf s t ∧ BufferKept .rxbuf s t ∧ RegistersKept s t ∧ EventTaken es s t) ∧
    (∀ i : Fin 1030, s.pending = .move (.wrRxbuf i b) :: es → ∃ t, step s = .next t ∧
      (∀ j, t.memRead .rxbuf j = if j = i.val then b else s.memRead .rxbuf j) ∧
      BufferKept .txbuf s t ∧ BufferKept .pbuf s t ∧ RegistersKept s t ∧ EventTaken es s t)

/-- 43_host_interface.md R165: a read returns the current value and changes nothing; `answer` is the model's field
for the value returned (log entry 5). -/
def Obligations.HostReadsReturnTheValueAndChangeNothing : Prop :=
  ∀ (s : State) (es : List Event) (m : Move) (a : Answer), s.pending = .move m :: es →
    (m = .rdReg .crc ∧ a = .word s.crc) ∨ (m = .rdReg .plen ∧ a = .word s.plen) ∨
    (m = .rdReg .txlen ∧ a = .word s.txlen) ∨ (m = .rdReg .rxlen ∧ a = .word s.rxlen) ∨
    (m = .rdReg .rcmd ∧ a = .byte s.rcmd) ∨ (m = .rdReg .rlen ∧ a = .word s.rlen) ∨
    (m = .rdReg .status ∧ a = .byte s.status) ∨
    (∃ i : Fin 1024, m = .rdPbuf i ∧ a = .byte (s.memRead .pbuf i.val)) ∨
    (∃ i : Fin 1030, m = .rdTxbuf i ∧ a = .byte (s.memRead .txbuf i.val)) ∨
    (∃ i : Fin 1030, m = .rdRxbuf i ∧ a = .byte (s.memRead .rxbuf i.val)) →
    step s = .next { s with pending := es, answer := some a }

/-- 10_state.md R22, the columns "host write" and "written by": which event may change which register or buffer.
A reset event is named wherever it changes state too (70_reset_and_hazards.md R250). -/
def Obligations.EachStateItemHasOnlyItsWriters : Prop :=
  ∀ s t : State, step s = .next t →
    (t.crc ≠ s.crc → Resets s ∨ Issues s (fun i => i = .crcInit ∨ (∃ b, i = .crcByte b) ∨
      ((∃ c, i = .enc c) ∧ t.status = 0) ∨ (i = .dec ∧ (t.status = 0 ∨ t.status = 5)))) ∧
    (t.plen ≠ s.plen → Resets s ∨ ∃ v, Moves s (.wrPlen v)) ∧
    (t.rxlen ≠ s.rxlen → Resets s ∨ ∃ v, Moves s (.wrRxlen v)) ∧
    (t.txlen ≠ s.txlen → Resets s ∨ Issues s (fun i => ∃ c, i = .enc c)) ∧
    (t.rcmd ≠ s.rcmd ∨ t.rlen ≠ s.rlen → Resets s ∨ Issues s (fun i => i = .dec)) ∧
    (t.status ≠ s.status → Resets s ∨ IssuesIllegal s ∨ Issues s (fun i => i = .dec ∨ ∃ c, i = .enc c)) ∧
    (¬ BufferKept .pbuf s t → Resets s ∨ ∃ i b, Moves s (.wrPbuf i b)) ∧
    (¬ BufferKept .rxbuf s t → Resets s ∨ ∃ i b, Moves s (.wrRxbuf i b)) ∧
    (¬ BufferKept .txbuf s t → Resets s ∨ Issues s (fun i => (∃ c, i = .enc c) ∧ t.status = 0))

/-- 10_state.md R40 and 70_reset_and_hazards.md R250: the reset state, and the reset event from any state, leave
`CRC = 0xFFFF` and every other register 0; nothing is said of a buffer byte. -/
def Obligations.ResetLeavesTheStatedRegisterValues : Prop :=
  ∀ (s : State) (es : List Event), s.pending = .reset :: es →
    ∃ t, step s = .next t ∧ ∀ z, z = t ∨ z = State.reset →
      z.crc = 0xFFFF ∧ z.plen = 0 ∧ z.txlen = 0 ∧ z.rxlen = 0 ∧ z.rcmd = 0 ∧ z.rlen = 0 ∧ z.status = 0

/-- 70_reset_and_hazards.md R253, an inference the spec marks as its own: each operation straight after a reset. -/
def Obligations.OperationsStraightAfterReset : Prop :=
  ∀ z : State, (z = State.reset ∨ ∃ s : State, z = s.resetEvent) →
    (∀ b, ∃ t, exec (.crcByte b) z = .next t ∧ t.crc = crcByte 0xFFFF b) ∧
    (∀ c, ∃ t, exec (.enc c) z = .next t ∧ t.status = 0 ∧ t.txlen = 6 ∧
      t.bytes .txbuf 0 6 = [0xAA, c, 0x00, 0x00, hi8 (crc16 [c, 0x00, 0x00]), lo8 (crc16 [c, 0x00, 0x00])]) ∧
    ∃ t, exec .dec z = .next t ∧ t.status = 2 ∧ t.crc = 0xFFFF

/-! ## Invariants -/

/-- 10_state.md R36, an inference the spec marks as its own: every step keeps (a) to (d). -/
def Obligations.EveryStepKeepsTheLegalRegisters : Prop :=
  ∀ s t : State, s.Legal → step s = .next t → t.Legal

/-- 41_encode.md R134 and R135, inferences the spec marks as its own: every step keeps that the bytes offered in
`TXBUF[0 .. TXLEN)` are a frame of the protocol. `memWf` is an invariant of its own. -/
def Obligations.EveryStepKeepsTheOfferedFrame : Prop :=
  ∀ s t : State, s.memWf = true → s.txFrame → step s = .next t → t.txFrame

/-- Every step keeps the buffers' lists canonical and inside their index ranges (20_memory.md R50 and R58, the model's
form of memory in log entry 4). -/
def Obligations.EveryStepKeepsTheBuffersCanonical : Prop :=
  ∀ s t : State, s.memWf = true → step s = .next t → t.memWf = true

/-- 60_exceptions.md R226, an inference the spec marks as its own: while `STATUS` reads `ST_OVERSIZE` no frame is
offered. -/
def Obligations.EveryStepKeepsOversizeWithoutFrame : Prop :=
  ∀ s t : State, s.oversizeCleared → step s = .next t → t.oversizeCleared

/-- The invariants hold at reset. -/
def Obligations.ResetMeetsEveryInvariant : Prop :=
  State.reset.Legal ∧ State.reset.txFrame ∧ State.reset.memWf = true ∧ State.reset.oversizeCleared

/-! ## The software around the block (45_payload_software.md, no part of the block) -/

/-- R182 to R186: every append adds exactly its bytes at the end when the size afterwards is at most the maximum, and
fails and writes nothing otherwise; `add_string` also fails above 255 encoded bytes and needs room for `1 + k` bytes.
That `add_f32` appends a NaN pattern bit for bit is the model's choice (log entry 22). -/
def Obligations.AppendIsAllOrNothing : Prop :=
  ∀ (p : Builder) (b : Byte) (v : Word) (w : BitVec 32) (bs : List Byte) (text : List Char),
    addU8 p b = AppendOf p [b] ∧ addU16 p v = AppendOf p [hi8 v, lo8 v] ∧ addI16 p v = AppendOf p [hi8 v, lo8 v] ∧
    (∃ b3 b2 b1 b0 : Byte,
      w.toNat = ((b3.toNat * 256 + b2.toNat) * 256 + b1.toNat) * 256 + b0.toNat ∧
      addI32 p w = AppendOf p [b3, b2, b1, b0] ∧ addF32 p w = AppendOf p [b3, b2, b1, b0]) ∧
    addBytes p bs = AppendOf p bs ∧
    addString p text =
      if 255 < (utf8 text).length then (p, false)
      else AppendOf p (BitVec.ofNat 8 (utf8 text).length :: utf8 text)

/-- R182, R184, R186, R191, R193, R194: what a successful append wrote is read back by the matching read from where it
was written, and the cursor advances by its width. Two's complement is general knowledge by the spec's own mark
(log entry 18); that a NaN pattern is read back bit for bit is the model's choice (log entry 22). -/
def Obligations.AppendedValuesAreReadBack : Prop :=
  ∀ (p q : Builder) (b : Byte) (v : Word) (w : BitVec 32) (bs rest : List Byte),
    let start : Cursor := ⟨q.bytes ++ rest, p.bytes.length⟩
    let stop : Cursor := ⟨q.bytes ++ rest, q.bytes.length⟩
    (addU8 p b = (q, true) → readU8 start = (stop, some b) ∧ stop.pos = start.pos + 1) ∧
    (addU16 p v = (q, true) → readU16 start = (stop, some v) ∧ stop.pos = start.pos + 2) ∧
    (addI16 p v = (q, true) → readI16 start = (stop, some v.toInt) ∧ stop.pos = start.pos + 2) ∧
    (addI32 p w = (q, true) → readI32 start = (stop, some w.toInt) ∧ stop.pos = start.pos + 4) ∧
    (addF32 p w = (q, true) → readF32 start = (stop, some w) ∧ stop.pos = start.pos + 4) ∧
    (addBytes p bs = (q, true) → readBytes start bs.length = (stop, some bs) ∧ stop.pos = start.pos + bs.length)

/-- R185 and R192, the source's string bounds: `add_string` rejects an encoding over 255 bytes; a string it appended
is read back exactly. UTF-8 itself is the standard's (log entry 18). -/
def Obligations.StringsAreRejectedAbove255OrReadBack : Prop :=
  ∀ (p q : Builder) (text : List Char) (rest : List Byte),
    (255 < (utf8 text).length → addString p text = (p, false)) ∧
    (addString p text = (q, true) →
      readString ⟨q.bytes ++ rest, p.bytes.length⟩ = (⟨q.bytes ++ rest, q.bytes.length⟩, some text))

/-- R190 to R195: a read either advances the cursor by exactly what it consumed, never past the end, and answers a
value, or leaves it and answers nothing; `read_string` consumes its length byte and that many bytes more, and in both of
its failure cases moves nothing (90_conflicts.md C8). -/
def Obligations.ReadsNeverPartlyConsume : Prop :=
  ∀ c : Cursor,
    (∀ n, readBytes c n = if n ≤ c.buf.length - c.pos then
      (⟨c.buf, c.pos + n⟩, some ((c.buf.drop c.pos).take n)) else (c, none)) ∧
    (∀ n, ReadsWholeOrNothing c n (readValue c n)) ∧
    ReadsWholeOrNothing c 1 (readU8 c) ∧ ReadsWholeOrNothing c 2 (readU16 c) ∧ ReadsWholeOrNothing c 2 (readI16 c) ∧
    ReadsWholeOrNothing c 4 (readI32 c) ∧ ReadsWholeOrNothing c 4 (readF32 c) ∧
    let k := (byteAt c.buf c.pos).toNat
    readString c = if c.pos + 1 + k ≤ c.buf.length then
      (⟨c.buf, c.pos + 1 + k⟩, some (textOf ((c.buf.drop (c.pos + 1)).take k))) else (c, none)

/-- R192: `read_string` replaces the invalid sequences of its bytes and nothing else. Between two valid texts, a stretch
in which no character's encoding starts reads as markers, at least one and at most one a byte; every character of the two
texts is read. Which marker, and how many, are free values (log entry 18). -/
def Obligations.OnlyInvalidSequencesAreReplaced : Prop :=
  ∀ (before after : List Char) (bad : List Byte), bad ≠ [] →
    (∀ j, j < bad.length → utf8Head ((bad ++ utf8 after).drop j) = none) →
    ∃ k, 1 ≤ k ∧ k ≤ bad.length ∧
      textOf (utf8 before ++ bad ++ utf8 after) = before ++ List.replicate k Config.replacementMarker ++ after

/-- R200: the four values the source prints, and the groups of the members it names (the groups of LED-blink, encoder
data and OLED text are read from their names, log entry 20); the system group has no other member. -/
def Obligations.VocabularyHasTheStatedValuesAndGroups : Prop :=
  commandValue .ping = 0x01 ∧ commandValue .ledBlink = 0x11 ∧ commandValue .encoderData = 0x31 ∧
  commandValue .oledText = 0x41 ∧
  (∀ c : Command, commandGroup c = .system ↔ c = .ping ∨ c = .pong ∨ c = .error ∨ c = .ack) ∧
  commandGroup .ledBlink = .led ∧ commandGroup .encoderData = .rotaryEncoder ∧ commandGroup .oledText = .display

/-- R202, with the model's choices of log entries 19 and 21: an error-reporting frame is a frame of the protocol under the
`error` command, and the code's single byte stands in its payload, between the bytes given before and after it. -/
def Obligations.ErrorFrameCarriesTheCodeInItsPayload : Prop :=
  ∀ (before after : List Byte) (e : ErrorCode), before.length + 1 + after.length ≤ 1024 →
    ∃ f, errorFrame before after e = some (.frame f) ∧ frameOfProtocol f = true ∧
      frameDecode f = .accept (commandValue .error) (before ++ Config.errorCodeValue e :: after)
end

