-- ==== Sys2Proof/Laws/Crc.lean ====
section
/-! SUPPORT. The small lemmas of the checksum functions (40_crc.md R111 to R113). -/

namespace Sys2Proof.Machine

@[simp] theorem crcFold_nil (r : Word) : crcFold r [] = r := rfl

@[simp] theorem crcFold_cons (r : Word) (b : Byte) (s : List Byte) : crcFold r (b :: s) = crcFold (crcByte r b) s := rfl

theorem crcRounds_succ (k : Nat) (r : Word) : crcRounds (k + 1) r = crcRounds k (crcRound r) := rfl

theorem crcRounds_add (j k : Nat) (r : Word) : crcRounds (j + k) r = crcRounds k (crcRounds j r) := by
  induction j generalizing r with
  | zero => simp [crcRounds]
  | succ j ih => rw [Nat.succ_add, crcRounds_succ, crcRounds_succ, ih]

/-- `crc16` is the fold of `crc_byte` from `0xFFFF`. -/
theorem crc16_eq (s : List Byte) : crc16 s = crcFold Config.crcInit s := rfl

/-! ### The rounds are linear -/

theorem crcRound_xor (a b : Word) : crcRound (a ^^^ b) = crcRound a ^^^ crcRound b := by
  unfold crcRound
  rw [BitVec.getLsbD_xor, BitVec.shiftLeft_xor_distrib]
  generalize a <<< 1 = x
  generalize b <<< 1 = y
  cases a.getLsbD 15 <;> cases b.getLsbD 15
  · rfl
  · simp [BitVec.xor_assoc]
  · simp only [Bool.xor_false, if_true, Bool.false_eq_true, if_false]
    rw [BitVec.xor_assoc, BitVec.xor_assoc, BitVec.xor_comm y]
  · simp only [Bool.xor_true, Bool.not_true, Bool.false_eq_true, if_false, if_true]
    rw [BitVec.xor_assoc x, ← BitVec.xor_assoc Config.poly, BitVec.xor_comm Config.poly, BitVec.xor_assoc y,
      BitVec.xor_self, BitVec.xor_zero]

theorem crcRounds_xor (k : Nat) (a b : Word) : crcRounds k (a ^^^ b) = crcRounds k a ^^^ crcRounds k b := by
  induction k generalizing a b with
  | zero => rfl
  | succ k ih => simp only [crcRounds, crcRound_xor, ih]

/-- Eight rounds of a value with an empty high byte only shift it. -/
theorem crcRounds_lowByte (b : Byte) : crcRounds 8 (b.setWidth 16) = b.setWidth 16 <<< 8 := by
  revert b
  decide

end Sys2Proof.Machine
end

