-- ==== Sys2Proof/Laws/State.lean ====
section
/-! SUPPORT. One lemma per field per update of the state, each true by `rfl` and a simp lemma, so that no
later proof unfolds a record update; and what each update does to a buffer's written bytes and to `memRead`. -/

namespace Sys2Proof.Machine

/-! ### setCrc -/

@[simp] theorem State.setCrc_crc (s : State) (v : Word) : (s.setCrc v).crc = v := rfl
@[simp] theorem State.setCrc_plen (s : State) (v : Word) : (s.setCrc v).plen = s.plen := rfl
@[simp] theorem State.setCrc_txlen (s : State) (v : Word) : (s.setCrc v).txlen = s.txlen := rfl
@[simp] theorem State.setCrc_rxlen (s : State) (v : Word) : (s.setCrc v).rxlen = s.rxlen := rfl
@[simp] theorem State.setCrc_rcmd (s : State) (v : Word) : (s.setCrc v).rcmd = s.rcmd := rfl
@[simp] theorem State.setCrc_rlen (s : State) (v : Word) : (s.setCrc v).rlen = s.rlen := rfl
@[simp] theorem State.setCrc_status (s : State) (v : Word) : (s.setCrc v).status = s.status := rfl
@[simp] theorem State.setCrc_pbuf (s : State) (v : Word) : (s.setCrc v).pbuf = s.pbuf := rfl
@[simp] theorem State.setCrc_txbuf (s : State) (v : Word) : (s.setCrc v).txbuf = s.txbuf := rfl
@[simp] theorem State.setCrc_rxbuf (s : State) (v : Word) : (s.setCrc v).rxbuf = s.rxbuf := rfl
@[simp] theorem State.setCrc_draw (s : State) (v : Word) : (s.setCrc v).draw = s.draw := rfl
@[simp] theorem State.setCrc_pending (s : State) (v : Word) : (s.setCrc v).pending = s.pending := rfl
@[simp] theorem State.setCrc_answer (s : State) (v : Word) : (s.setCrc v).answer = s.answer := rfl

@[simp] theorem State.setCrc_buf (s : State) (v : Word) (B : Buf) : (s.setCrc v).buf B = s.buf B := by
  cases B <;> rfl

@[simp] theorem State.setCrc_memRead (s : State) (v : Word) (B : Buf) (i : Nat) :
    (s.setCrc v).memRead B i = s.memRead B i := by
  cases B <;> rfl

/-! ### setPlen -/

@[simp] theorem State.setPlen_crc (s : State) (v : Word) : (s.setPlen v).crc = s.crc := rfl
@[simp] theorem State.setPlen_plen (s : State) (v : Word) : (s.setPlen v).plen = v := rfl
@[simp] theorem State.setPlen_txlen (s : State) (v : Word) : (s.setPlen v).txlen = s.txlen := rfl
@[simp] theorem State.setPlen_rxlen (s : State) (v : Word) : (s.setPlen v).rxlen = s.rxlen := rfl
@[simp] theorem State.setPlen_rcmd (s : State) (v : Word) : (s.setPlen v).rcmd = s.rcmd := rfl
@[simp] theorem State.setPlen_rlen (s : State) (v : Word) : (s.setPlen v).rlen = s.rlen := rfl
@[simp] theorem State.setPlen_status (s : State) (v : Word) : (s.setPlen v).status = s.status := rfl
@[simp] theorem State.setPlen_pbuf (s : State) (v : Word) : (s.setPlen v).pbuf = s.pbuf := rfl
@[simp] theorem State.setPlen_txbuf (s : State) (v : Word) : (s.setPlen v).txbuf = s.txbuf := rfl
@[simp] theorem State.setPlen_rxbuf (s : State) (v : Word) : (s.setPlen v).rxbuf = s.rxbuf := rfl
@[simp] theorem State.setPlen_draw (s : State) (v : Word) : (s.setPlen v).draw = s.draw := rfl
@[simp] theorem State.setPlen_pending (s : State) (v : Word) : (s.setPlen v).pending = s.pending := rfl
@[simp] theorem State.setPlen_answer (s : State) (v : Word) : (s.setPlen v).answer = s.answer := rfl

@[simp] theorem State.setPlen_buf (s : State) (v : Word) (B : Buf) : (s.setPlen v).buf B = s.buf B := by
  cases B <;> rfl

@[simp] theorem State.setPlen_memRead (s : State) (v : Word) (B : Buf) (i : Nat) :
    (s.setPlen v).memRead B i = s.memRead B i := by
  cases B <;> rfl

/-! ### setTxlen -/

@[simp] theorem State.setTxlen_crc (s : State) (v : Word) : (s.setTxlen v).crc = s.crc := rfl
@[simp] theorem State.setTxlen_plen (s : State) (v : Word) : (s.setTxlen v).plen = s.plen := rfl
@[simp] theorem State.setTxlen_txlen (s : State) (v : Word) : (s.setTxlen v).txlen = v := rfl
@[simp] theorem State.setTxlen_rxlen (s : State) (v : Word) : (s.setTxlen v).rxlen = s.rxlen := rfl
@[simp] theorem State.setTxlen_rcmd (s : State) (v : Word) : (s.setTxlen v).rcmd = s.rcmd := rfl
@[simp] theorem State.setTxlen_rlen (s : State) (v : Word) : (s.setTxlen v).rlen = s.rlen := rfl
@[simp] theorem State.setTxlen_status (s : State) (v : Word) : (s.setTxlen v).status = s.status := rfl
@[simp] theorem State.setTxlen_pbuf (s : State) (v : Word) : (s.setTxlen v).pbuf = s.pbuf := rfl
@[simp] theorem State.setTxlen_txbuf (s : State) (v : Word) : (s.setTxlen v).txbuf = s.txbuf := rfl
@[simp] theorem State.setTxlen_rxbuf (s : State) (v : Word) : (s.setTxlen v).rxbuf = s.rxbuf := rfl
@[simp] theorem State.setTxlen_draw (s : State) (v : Word) : (s.setTxlen v).draw = s.draw := rfl
@[simp] theorem State.setTxlen_pending (s : State) (v : Word) : (s.setTxlen v).pending = s.pending := rfl
@[simp] theorem State.setTxlen_answer (s : State) (v : Word) : (s.setTxlen v).answer = s.answer := rfl

@[simp] theorem State.setTxlen_buf (s : State) (v : Word) (B : Buf) : (s.setTxlen v).buf B = s.buf B := by
  cases B <;> rfl

@[simp] theorem State.setTxlen_memRead (s : State) (v : Word) (B : Buf) (i : Nat) :
    (s.setTxlen v).memRead B i = s.memRead B i := by
  cases B <;> rfl

/-! ### setRxlen -/

@[simp] theorem State.setRxlen_crc (s : State) (v : Word) : (s.setRxlen v).crc = s.crc := rfl
@[simp] theorem State.setRxlen_plen (s : State) (v : Word) : (s.setRxlen v).plen = s.plen := rfl
@[simp] theorem State.setRxlen_txlen (s : State) (v : Word) : (s.setRxlen v).txlen = s.txlen := rfl
@[simp] theorem State.setRxlen_rxlen (s : State) (v : Word) : (s.setRxlen v).rxlen = v := rfl
@[simp] theorem State.setRxlen_rcmd (s : State) (v : Word) : (s.setRxlen v).rcmd = s.rcmd := rfl
@[simp] theorem State.setRxlen_rlen (s : State) (v : Word) : (s.setRxlen v).rlen = s.rlen := rfl
@[simp] theorem State.setRxlen_status (s : State) (v : Word) : (s.setRxlen v).status = s.status := rfl
@[simp] theorem State.setRxlen_pbuf (s : State) (v : Word) : (s.setRxlen v).pbuf = s.pbuf := rfl
@[simp] theorem State.setRxlen_txbuf (s : State) (v : Word) : (s.setRxlen v).txbuf = s.txbuf := rfl
@[simp] theorem State.setRxlen_rxbuf (s : State) (v : Word) : (s.setRxlen v).rxbuf = s.rxbuf := rfl
@[simp] theorem State.setRxlen_draw (s : State) (v : Word) : (s.setRxlen v).draw = s.draw := rfl
@[simp] theorem State.setRxlen_pending (s : State) (v : Word) : (s.setRxlen v).pending = s.pending := rfl
@[simp] theorem State.setRxlen_answer (s : State) (v : Word) : (s.setRxlen v).answer = s.answer := rfl

@[simp] theorem State.setRxlen_buf (s : State) (v : Word) (B : Buf) : (s.setRxlen v).buf B = s.buf B := by
  cases B <;> rfl

@[simp] theorem State.setRxlen_memRead (s : State) (v : Word) (B : Buf) (i : Nat) :
    (s.setRxlen v).memRead B i = s.memRead B i := by
  cases B <;> rfl

/-! ### setRcmd -/

@[simp] theorem State.setRcmd_crc (s : State) (v : Byte) : (s.setRcmd v).crc = s.crc := rfl
@[simp] theorem State.setRcmd_plen (s : State) (v : Byte) : (s.setRcmd v).plen = s.plen := rfl
@[simp] theorem State.setRcmd_txlen (s : State) (v : Byte) : (s.setRcmd v).txlen = s.txlen := rfl
@[simp] theorem State.setRcmd_rxlen (s : State) (v : Byte) : (s.setRcmd v).rxlen = s.rxlen := rfl
@[simp] theorem State.setRcmd_rcmd (s : State) (v : Byte) : (s.setRcmd v).rcmd = v := rfl
@[simp] theorem State.setRcmd_rlen (s : State) (v : Byte) : (s.setRcmd v).rlen = s.rlen := rfl
@[simp] theorem State.setRcmd_status (s : State) (v : Byte) : (s.setRcmd v).status = s.status := rfl
@[simp] theorem State.setRcmd_pbuf (s : State) (v : Byte) : (s.setRcmd v).pbuf = s.pbuf := rfl
@[simp] theorem State.setRcmd_txbuf (s : State) (v : Byte) : (s.setRcmd v).txbuf = s.txbuf := rfl
@[simp] theorem State.setRcmd_rxbuf (s : State) (v : Byte) : (s.setRcmd v).rxbuf = s.rxbuf := rfl
@[simp] theorem State.setRcmd_draw (s : State) (v : Byte) : (s.setRcmd v).draw = s.draw := rfl
@[simp] theorem State.setRcmd_pending (s : State) (v : Byte) : (s.setRcmd v).pending = s.pending := rfl
@[simp] theorem State.setRcmd_answer (s : State) (v : Byte) : (s.setRcmd v).answer = s.answer := rfl

@[simp] theorem State.setRcmd_buf (s : State) (v : Byte) (B : Buf) : (s.setRcmd v).buf B = s.buf B := by
  cases B <;> rfl

@[simp] theorem State.setRcmd_memRead (s : State) (v : Byte) (B : Buf) (i : Nat) :
    (s.setRcmd v).memRead B i = s.memRead B i := by
  cases B <;> rfl

/-! ### setRlen -/

@[simp] theorem State.setRlen_crc (s : State) (v : Word) : (s.setRlen v).crc = s.crc := rfl
@[simp] theorem State.setRlen_plen (s : State) (v : Word) : (s.setRlen v).plen = s.plen := rfl
@[simp] theorem State.setRlen_txlen (s : State) (v : Word) : (s.setRlen v).txlen = s.txlen := rfl
@[simp] theorem State.setRlen_rxlen (s : State) (v : Word) : (s.setRlen v).rxlen = s.rxlen := rfl
@[simp] theorem State.setRlen_rcmd (s : State) (v : Word) : (s.setRlen v).rcmd = s.rcmd := rfl
@[simp] theorem State.setRlen_rlen (s : State) (v : Word) : (s.setRlen v).rlen = v := rfl
@[simp] theorem State.setRlen_status (s : State) (v : Word) : (s.setRlen v).status = s.status := rfl
@[simp] theorem State.setRlen_pbuf (s : State) (v : Word) : (s.setRlen v).pbuf = s.pbuf := rfl
@[simp] theorem State.setRlen_txbuf (s : State) (v : Word) : (s.setRlen v).txbuf = s.txbuf := rfl
@[simp] theorem State.setRlen_rxbuf (s : State) (v : Word) : (s.setRlen v).rxbuf = s.rxbuf := rfl
@[simp] theorem State.setRlen_draw (s : State) (v : Word) : (s.setRlen v).draw = s.draw := rfl
@[simp] theorem State.setRlen_pending (s : State) (v : Word) : (s.setRlen v).pending = s.pending := rfl
@[simp] theorem State.setRlen_answer (s : State) (v : Word) : (s.setRlen v).answer = s.answer := rfl

@[simp] theorem State.setRlen_buf (s : State) (v : Word) (B : Buf) : (s.setRlen v).buf B = s.buf B := by
  cases B <;> rfl

@[simp] theorem State.setRlen_memRead (s : State) (v : Word) (B : Buf) (i : Nat) :
    (s.setRlen v).memRead B i = s.memRead B i := by
  cases B <;> rfl

/-! ### setStatus -/

@[simp] theorem State.setStatus_crc (s : State) (v : Byte) : (s.setStatus v).crc = s.crc := rfl
@[simp] theorem State.setStatus_plen (s : State) (v : Byte) : (s.setStatus v).plen = s.plen := rfl
@[simp] theorem State.setStatus_txlen (s : State) (v : Byte) : (s.setStatus v).txlen = s.txlen := rfl
@[simp] theorem State.setStatus_rxlen (s : State) (v : Byte) : (s.setStatus v).rxlen = s.rxlen := rfl
@[simp] theorem State.setStatus_rcmd (s : State) (v : Byte) : (s.setStatus v).rcmd = s.rcmd := rfl
@[simp] theorem State.setStatus_rlen (s : State) (v : Byte) : (s.setStatus v).rlen = s.rlen := rfl
@[simp] theorem State.setStatus_status (s : State) (v : Byte) : (s.setStatus v).status = v := rfl
@[simp] theorem State.setStatus_pbuf (s : State) (v : Byte) : (s.setStatus v).pbuf = s.pbuf := rfl
@[simp] theorem State.setStatus_txbuf (s : State) (v : Byte) : (s.setStatus v).txbuf = s.txbuf := rfl
@[simp] theorem State.setStatus_rxbuf (s : State) (v : Byte) : (s.setStatus v).rxbuf = s.rxbuf := rfl
@[simp] theorem State.setStatus_draw (s : State) (v : Byte) : (s.setStatus v).draw = s.draw := rfl
@[simp] theorem State.setStatus_pending (s : State) (v : Byte) : (s.setStatus v).pending = s.pending := rfl
@[simp] theorem State.setStatus_answer (s : State) (v : Byte) : (s.setStatus v).answer = s.answer := rfl

@[simp] theorem State.setStatus_buf (s : State) (v : Byte) (B : Buf) : (s.setStatus v).buf B = s.buf B := by
  cases B <;> rfl

@[simp] theorem State.setStatus_memRead (s : State) (v : Byte) (B : Buf) (i : Nat) :
    (s.setStatus v).memRead B i = s.memRead B i := by
  cases B <;> rfl

/-! ### setPending -/

@[simp] theorem State.setPending_crc (s : State) (v : List Event) : (s.setPending v).crc = s.crc := rfl
@[simp] theorem State.setPending_plen (s : State) (v : List Event) : (s.setPending v).plen = s.plen := rfl
@[simp] theorem State.setPending_txlen (s : State) (v : List Event) : (s.setPending v).txlen = s.txlen := rfl
@[simp] theorem State.setPending_rxlen (s : State) (v : List Event) : (s.setPending v).rxlen = s.rxlen := rfl
@[simp] theorem State.setPending_rcmd (s : State) (v : List Event) : (s.setPending v).rcmd = s.rcmd := rfl
@[simp] theorem State.setPending_rlen (s : State) (v : List Event) : (s.setPending v).rlen = s.rlen := rfl
@[simp] theorem State.setPending_status (s : State) (v : List Event) : (s.setPending v).status = s.status := rfl
@[simp] theorem State.setPending_pbuf (s : State) (v : List Event) : (s.setPending v).pbuf = s.pbuf := rfl
@[simp] theorem State.setPending_txbuf (s : State) (v : List Event) : (s.setPending v).txbuf = s.txbuf := rfl
@[simp] theorem State.setPending_rxbuf (s : State) (v : List Event) : (s.setPending v).rxbuf = s.rxbuf := rfl
@[simp] theorem State.setPending_draw (s : State) (v : List Event) : (s.setPending v).draw = s.draw := rfl
@[simp] theorem State.setPending_pending (s : State) (v : List Event) : (s.setPending v).pending = v := rfl
@[simp] theorem State.setPending_answer (s : State) (v : List Event) : (s.setPending v).answer = s.answer := rfl

@[simp] theorem State.setPending_buf (s : State) (v : List Event) (B : Buf) : (s.setPending v).buf B = s.buf B := by
  cases B <;> rfl

@[simp] theorem State.setPending_memRead (s : State) (v : List Event) (B : Buf) (i : Nat) :
    (s.setPending v).memRead B i = s.memRead B i := by
  cases B <;> rfl

/-! ### setAnswer -/

@[simp] theorem State.setAnswer_crc (s : State) (v : Answer) : (s.setAnswer v).crc = s.crc := rfl
@[simp] theorem State.setAnswer_plen (s : State) (v : Answer) : (s.setAnswer v).plen = s.plen := rfl
@[simp] theorem State.setAnswer_txlen (s : State) (v : Answer) : (s.setAnswer v).txlen = s.txlen := rfl
@[simp] theorem State.setAnswer_rxlen (s : State) (v : Answer) : (s.setAnswer v).rxlen = s.rxlen := rfl
@[simp] theorem State.setAnswer_rcmd (s : State) (v : Answer) : (s.setAnswer v).rcmd = s.rcmd := rfl
@[simp] theorem State.setAnswer_rlen (s : State) (v : Answer) : (s.setAnswer v).rlen = s.rlen := rfl
@[simp] theorem State.setAnswer_status (s : State) (v : Answer) : (s.setAnswer v).status = s.status := rfl
@[simp] theorem State.setAnswer_pbuf (s : State) (v : Answer) : (s.setAnswer v).pbuf = s.pbuf := rfl
@[simp] theorem State.setAnswer_txbuf (s : State) (v : Answer) : (s.setAnswer v).txbuf = s.txbuf := rfl
@[simp] theorem State.setAnswer_rxbuf (s : State) (v : Answer) : (s.setAnswer v).rxbuf = s.rxbuf := rfl
@[simp] theorem State.setAnswer_draw (s : State) (v : Answer) : (s.setAnswer v).draw = s.draw := rfl
@[simp] theorem State.setAnswer_pending (s : State) (v : Answer) : (s.setAnswer v).pending = s.pending := rfl
@[simp] theorem State.setAnswer_answer (s : State) (v : Answer) : (s.setAnswer v).answer = some v := rfl

@[simp] theorem State.setAnswer_buf (s : State) (v : Answer) (B : Buf) : (s.setAnswer v).buf B = s.buf B := by
  cases B <;> rfl

@[simp] theorem State.setAnswer_memRead (s : State) (v : Answer) (B : Buf) (i : Nat) :
    (s.setAnswer v).memRead B i = s.memRead B i := by
  cases B <;> rfl

/-! ### report -/

@[simp] theorem State.report_crc (s : State) (v : Code) : (s.report v).crc = s.crc := rfl
@[simp] theorem State.report_plen (s : State) (v : Code) : (s.report v).plen = s.plen := rfl
@[simp] theorem State.report_txlen (s : State) (v : Code) : (s.report v).txlen = s.txlen := rfl
@[simp] theorem State.report_rxlen (s : State) (v : Code) : (s.report v).rxlen = s.rxlen := rfl
@[simp] theorem State.report_rcmd (s : State) (v : Code) : (s.report v).rcmd = s.rcmd := rfl
@[simp] theorem State.report_rlen (s : State) (v : Code) : (s.report v).rlen = s.rlen := rfl
@[simp] theorem State.report_status (s : State) (v : Code) : (s.report v).status = v.value := rfl
@[simp] theorem State.report_pbuf (s : State) (v : Code) : (s.report v).pbuf = s.pbuf := rfl
@[simp] theorem State.report_txbuf (s : State) (v : Code) : (s.report v).txbuf = s.txbuf := rfl
@[simp] theorem State.report_rxbuf (s : State) (v : Code) : (s.report v).rxbuf = s.rxbuf := rfl
@[simp] theorem State.report_draw (s : State) (v : Code) : (s.report v).draw = s.draw := rfl
@[simp] theorem State.report_pending (s : State) (v : Code) : (s.report v).pending = s.pending := rfl
@[simp] theorem State.report_answer (s : State) (v : Code) : (s.report v).answer = s.answer := rfl

@[simp] theorem State.report_buf (s : State) (v : Code) (B : Buf) : (s.report v).buf B = s.buf B := by
  cases B <;> rfl

@[simp] theorem State.report_memRead (s : State) (v : Code) (B : Buf) (i : Nat) :
    (s.report v).memRead B i = s.memRead B i := by
  cases B <;> rfl

/-- A report leaves the reserved bits 7:3 of `STATUS` 0 and its code in bits 2:0 (10_state.md R29). -/
@[simp] theorem State.report_statusReserved (s : State) (c : Code) : (s.report c).statusReserved = 0 := by
  show c.value.extractLsb' 3 5 = 0
  cases c <;> decide

@[simp] theorem State.report_code (s : State) (c : Code) : (s.report c).code = c.value.setWidth 3 := by
  show c.value.extractLsb' 0 3 = c.value.setWidth 3
  cases c <;> decide

/-! ### setBuf -/

@[simp] theorem State.setBuf_crc (s : State) (B : Buf) (m : Mem) : (s.setBuf B m).crc = s.crc := by cases B <;> rfl
@[simp] theorem State.setBuf_plen (s : State) (B : Buf) (m : Mem) : (s.setBuf B m).plen = s.plen := by cases B <;> rfl
@[simp] theorem State.setBuf_txlen (s : State) (B : Buf) (m : Mem) : (s.setBuf B m).txlen = s.txlen := by cases B <;> rfl
@[simp] theorem State.setBuf_rxlen (s : State) (B : Buf) (m : Mem) : (s.setBuf B m).rxlen = s.rxlen := by cases B <;> rfl
@[simp] theorem State.setBuf_rcmd (s : State) (B : Buf) (m : Mem) : (s.setBuf B m).rcmd = s.rcmd := by cases B <;> rfl
@[simp] theorem State.setBuf_rlen (s : State) (B : Buf) (m : Mem) : (s.setBuf B m).rlen = s.rlen := by cases B <;> rfl
@[simp] theorem State.setBuf_status (s : State) (B : Buf) (m : Mem) : (s.setBuf B m).status = s.status := by cases B <;> rfl
@[simp] theorem State.setBuf_draw (s : State) (B : Buf) (m : Mem) : (s.setBuf B m).draw = s.draw := by cases B <;> rfl
@[simp] theorem State.setBuf_pending (s : State) (B : Buf) (m : Mem) : (s.setBuf B m).pending = s.pending := by cases B <;> rfl
@[simp] theorem State.setBuf_answer (s : State) (B : Buf) (m : Mem) : (s.setBuf B m).answer = s.answer := by cases B <;> rfl

/-- A write to one buffer replaces that buffer and no other: the spaces are disjoint (20_memory.md R50). -/
theorem State.setBuf_buf (s : State) (B C : Buf) (m : Mem) :
    (s.setBuf B m).buf C = if C = B then m else s.buf C := by
  cases B <;> cases C <;> rfl

/-! ### resetEvent -/

@[simp] theorem State.resetEvent_crc (s : State) : s.resetEvent.crc = State.reset.crc := rfl
@[simp] theorem State.resetEvent_plen (s : State) : s.resetEvent.plen = State.reset.plen := rfl
@[simp] theorem State.resetEvent_txlen (s : State) : s.resetEvent.txlen = State.reset.txlen := rfl
@[simp] theorem State.resetEvent_rxlen (s : State) : s.resetEvent.rxlen = State.reset.rxlen := rfl
@[simp] theorem State.resetEvent_rcmd (s : State) : s.resetEvent.rcmd = State.reset.rcmd := rfl
@[simp] theorem State.resetEvent_rlen (s : State) : s.resetEvent.rlen = State.reset.rlen := rfl
@[simp] theorem State.resetEvent_status (s : State) : s.resetEvent.status = State.reset.status := rfl
@[simp] theorem State.resetEvent_pbuf (s : State) : s.resetEvent.pbuf = State.reset.pbuf := rfl
@[simp] theorem State.resetEvent_txbuf (s : State) : s.resetEvent.txbuf = State.reset.txbuf := rfl
@[simp] theorem State.resetEvent_rxbuf (s : State) : s.resetEvent.rxbuf = State.reset.rxbuf := rfl
@[simp] theorem State.resetEvent_draw (s : State) : s.resetEvent.draw = s.draw + 1 := rfl
@[simp] theorem State.resetEvent_pending (s : State) : s.resetEvent.pending = s.pending := rfl
@[simp] theorem State.resetEvent_answer (s : State) : s.resetEvent.answer = s.answer := rfl

end Sys2Proof.Machine
end

