-- ==== Sys2Proof/Laws/Memory.lean ====
section
/-! SUPPORT. The buffers: a read after a write (20_memory.md R56), disjoint spaces (R50), and that every
memory operation keeps the canonical form (log entry 4). -/

namespace Sys2Proof.Machine

/-! ### The list of written bytes -/

theorem Mem.written_set (m : Mem) (i j : Nat) (b : Byte) (h : m.wf = true) :
    (Mem.set m i b).written j = if j = i then some b else m.written j := by
  induction m with
  | nil => simp [Mem.set, Mem.written]
  | cons c m ih =>
    obtain ⟨k, c⟩ := c
    have hm : Mem.wf m = true := by
      cases m with
      | nil => rfl
      | cons d m => simp [Mem.wf, Mem.risingAbove] at h ⊢; exact h.2
    simp only [Mem.set]
    split
    · simp only [Mem.written]
    · split
      · subst_vars; by_cases hj : j = k <;> simp [Mem.written, hj]
      · by_cases hj : j = k
        · subst hj; simp [Mem.written]; intro e; simp_all
        · simp [Mem.written, hj, ih hm]

theorem Mem.risingAbove_mono {lo lo' : Nat} {m : Mem} (h : lo' ≤ lo) (hm : Mem.risingAbove lo m = true) :
    Mem.risingAbove lo' m = true := by
  cases m with
  | nil => rfl
  | cons c m => simp [Mem.risingAbove] at hm ⊢; exact ⟨by omega, hm.2⟩

theorem Mem.risingAbove_set {lo i : Nat} {m : Mem} (b : Byte) (hi : lo < i) (hm : Mem.risingAbove lo m = true) :
    Mem.risingAbove lo (Mem.set m i b) = true := by
  induction m generalizing lo with
  | nil => simp [Mem.set, Mem.risingAbove, hi]
  | cons c m ih =>
    obtain ⟨k, c⟩ := c
    simp only [Mem.risingAbove, Bool.and_eq_true, decide_eq_true_eq] at hm
    simp only [Mem.set]
    split
    · simp [Mem.risingAbove, hi, hm]; omega
    · split
      · subst_vars; simp [Mem.risingAbove, hm]
      · simp only [Mem.risingAbove, Bool.and_eq_true, decide_eq_true_eq]
        exact ⟨hm.1, ih (by omega) hm.2⟩

/-- A write keeps the canonical form. -/
theorem Mem.wf_set {m : Mem} (i : Nat) (b : Byte) (h : m.wf = true) : (Mem.set m i b).wf = true := by
  cases m with
  | nil => rfl
  | cons c m =>
    obtain ⟨k, c⟩ := c
    simp only [Mem.wf] at h
    simp only [Mem.set]
    split
    · simp [Mem.wf, Mem.risingAbove, h]; omega
    · split
      · subst_vars; exact h
      · exact Mem.risingAbove_set b (by omega) h

/-- A write below a capacity lists nothing at or above it. -/
theorem Mem.within_set {m : Mem} {cap i : Nat} (b : Byte) (hi : i < cap) (h : m.within cap = true) :
    (Mem.set m i b).within cap = true := by
  induction m with
  | nil => simp [Mem.set, Mem.within, hi]
  | cons c m ih =>
    obtain ⟨k, c⟩ := c
    simp only [Mem.within, List.all_cons, Bool.and_eq_true, decide_eq_true_eq] at h ih
    simp only [Mem.set]
    split
    · simp [Mem.within, hi, h]
    · split
      · simp [Mem.within, hi, h]
      · simp only [Mem.within, List.all_cons, Bool.and_eq_true, decide_eq_true_eq]
        exact ⟨h.1, ih h.2⟩

/-! ### memWrite -/

@[simp] theorem State.memWrite_crc (s : State) (B : Buf) (i : Nat) (b : Byte) : (s.memWrite B i b).crc = s.crc := by simp [State.memWrite]
@[simp] theorem State.memWrite_plen (s : State) (B : Buf) (i : Nat) (b : Byte) : (s.memWrite B i b).plen = s.plen := by simp [State.memWrite]
@[simp] theorem State.memWrite_txlen (s : State) (B : Buf) (i : Nat) (b : Byte) : (s.memWrite B i b).txlen = s.txlen := by simp [State.memWrite]
@[simp] theorem State.memWrite_rxlen (s : State) (B : Buf) (i : Nat) (b : Byte) : (s.memWrite B i b).rxlen = s.rxlen := by simp [State.memWrite]
@[simp] theorem State.memWrite_rcmd (s : State) (B : Buf) (i : Nat) (b : Byte) : (s.memWrite B i b).rcmd = s.rcmd := by simp [State.memWrite]
@[simp] theorem State.memWrite_rlen (s : State) (B : Buf) (i : Nat) (b : Byte) : (s.memWrite B i b).rlen = s.rlen := by simp [State.memWrite]
@[simp] theorem State.memWrite_status (s : State) (B : Buf) (i : Nat) (b : Byte) : (s.memWrite B i b).status = s.status := by simp [State.memWrite]
@[simp] theorem State.memWrite_draw (s : State) (B : Buf) (i : Nat) (b : Byte) : (s.memWrite B i b).draw = s.draw := by simp [State.memWrite]
@[simp] theorem State.memWrite_pending (s : State) (B : Buf) (i : Nat) (b : Byte) : (s.memWrite B i b).pending = s.pending := by simp [State.memWrite]
@[simp] theorem State.memWrite_answer (s : State) (B : Buf) (i : Nat) (b : Byte) : (s.memWrite B i b).answer = s.answer := by simp [State.memWrite]

theorem State.memWrite_buf (s : State) (B C : Buf) (i : Nat) (b : Byte) :
    (s.memWrite B i b).buf C = if C = B then (s.buf B).set i b else s.buf C := by
  simp [State.memWrite, State.setBuf_buf]

/-- A write to one buffer changes no byte of another (20_memory.md R50). -/
theorem State.memRead_memWrite_otherBuf (s : State) {B C : Buf} (i j : Nat) (b : Byte) (h : C ≠ B) :
    (s.memWrite B i b).memRead C j = s.memRead C j := by
  simp [State.memRead, State.memWrite_buf, h]

/-- A read after a write: the byte written at its index, the old byte elsewhere (20_memory.md R56). -/
theorem State.memRead_memWrite (s : State) {B : Buf} (i j : Nat) (b : Byte) (h : (s.buf B).wf = true) :
    (s.memWrite B i b).memRead B j = if j = i then b else s.memRead B j := by
  simp only [State.memRead, State.memWrite_buf, if_true, Mem.written_set _ _ _ _ h, State.memWrite_draw]
  by_cases hj : j = i <;> simp [hj]

/-- A buffer's canonical form survives any write. -/
theorem State.memWrite_wf (s : State) (B C : Buf) (i : Nat) (b : Byte) (h : (s.buf C).wf = true) :
    ((s.memWrite B i b).buf C).wf = true := by
  rw [State.memWrite_buf]
  split
  · subst_vars; exact Mem.wf_set _ _ h
  · exact h

/-- The three clauses of `memWf`, buffer by buffer. -/
theorem State.memWf_iff (s : State) :
    s.memWf = true ↔ ∀ B, (s.buf B).wf = true ∧ (s.buf B).within (Config.capacity B) = true := by
  constructor
  · intro h B
    simp only [State.memWf, Bool.and_eq_true] at h
    cases B <;> simp [State.buf, Config.capacity, h]
  · intro h
    simp only [State.memWf, Bool.and_eq_true]
    exact ⟨⟨h .pbuf, h .txbuf⟩, h .rxbuf⟩

/-- A write inside its buffer keeps `memWf`. -/
theorem State.memWrite_memWf (s : State) {B : Buf} {i : Nat} (b : Byte) (hi : i < Config.capacity B)
    (h : s.memWf = true) : (s.memWrite B i b).memWf = true := by
  rw [State.memWf_iff] at h ⊢
  intro C
  rw [State.memWrite_buf]
  split
  · subst_vars; exact ⟨Mem.wf_set _ _ (h C).1, Mem.within_set _ hi (h C).2⟩
  · exact h C

/-- The buffers at reset list nothing. -/
theorem State.reset_memWf : State.reset.memWf = true := rfl

/-- `memWf` looks at the three buffers only. -/
theorem State.memWf_congr {s t : State} (h : ∀ B, t.buf B = s.buf B) : t.memWf = s.memWf := by
  have h1 := h .pbuf; have h2 := h .txbuf; have h3 := h .rxbuf
  simp only [State.buf] at h1 h2 h3
  simp [State.memWf, h1, h2, h3]

/-! ### Byte sequences of a buffer -/

@[simp] theorem State.readFrom_length (s : State) (B : Buf) (a n : Nat) : (s.readFrom B a n).length = n := by
  induction n generalizing a with
  | zero => rfl
  | succ n ih => simp [State.readFrom, ih]

theorem State.readFrom_getElem? (s : State) (B : Buf) (a n i : Nat) :
    (s.readFrom B a n)[i]? = if i < n then some (s.memRead B (a + i)) else none := by
  induction n generalizing a i with
  | zero => simp [State.readFrom]
  | succ n ih =>
    cases i with
    | zero => simp [State.readFrom]
    | succ i => simp [State.readFrom, ih, Nat.add_assoc, Nat.add_comm 1 i]

theorem State.readFrom_congr {s t : State} {B C : Buf} {a b n : Nat}
    (h : ∀ i, i < n → t.memRead C (b + i) = s.memRead B (a + i)) : t.readFrom C b n = s.readFrom B a n := by
  apply List.ext_getElem?
  intro i
  simp only [State.readFrom_getElem?]
  split
  · rename_i hi; rw [h i hi]
  · rfl

theorem State.readFrom_add (s : State) (B : Buf) (a m n : Nat) :
    s.readFrom B a (m + n) = s.readFrom B a m ++ s.readFrom B (a + m) n := by
  induction m generalizing a with
  | zero => simp [State.readFrom]
  | succ m ih => simp [State.readFrom, Nat.succ_add, ih, Nat.add_assoc]

@[simp] theorem State.bytes_length (s : State) (B : Buf) (a b : Nat) : (s.bytes B a b).length = b - a := by
  simp [State.bytes]

/-- `B[a .. b)` depends on the bytes `a` to `b - 1` and on nothing else. -/
theorem State.bytes_congr {s t : State} {B : Buf} {a b : Nat}
    (h : ∀ i, a ≤ i → i < b → t.memRead B i = s.memRead B i) : t.bytes B a b = s.bytes B a b := by
  apply State.readFrom_congr
  intro i hi
  exact h _ (by omega) (by omega)

/-- A part of `B[0 .. n)` is the bytes of the buffer at its own indexes. -/
theorem State.slice_bytes (s : State) (B : Buf) {a b n : Nat} (hab : a ≤ b) (hbn : b ≤ n) :
    slice (s.bytes B 0 n) a b = s.bytes B a b := by
  apply List.ext_getElem?
  intro i
  simp only [slice, State.bytes, List.getElem?_take, List.getElem?_drop, State.readFrom_getElem?, Nat.zero_add,
    Nat.sub_zero]
  split
  · rw [if_pos (by omega)]
  · rfl

/-- A byte of `B[0 .. n)` is the byte of the buffer at its index. -/
theorem State.byteAt_bytes (s : State) (B : Buf) {i n : Nat} (h : i < n) : byteAt (s.bytes B 0 n) i = s.memRead B i := by
  simp only [byteAt, State.bytes, List.getD_eq_getElem?_getD, State.readFrom_getElem?, Nat.sub_zero, if_pos h,
    Nat.zero_add, Option.getD_some]

end Sys2Proof.Machine
end

