-- ==== Sys2Proof/Laws/Codec.lean ====
section
/-! SUPPORT. What the loops of `ENC` and `DEC` do, once each (41_encode.md R133, 42_decode.md R143). -/

namespace Sys2Proof.Machine

/-! ### The encoder's loop -/

/-- The loop's checksum is the fold over the payload bytes it read. -/
theorem encPayload_crc (k i : Nat) (s : State) (r : Word) :
    (encPayload k i s r).2 = crcFold r (s.readFrom .pbuf i k) := by
  induction k generalizing i s r with
  | zero => rfl
  | succ k ih =>
    simp only [encPayload, ih, State.readFrom, crcFold_cons]
    congr 1
    apply State.readFrom_congr
    intro j _
    exact State.memRead_memWrite_otherBuf _ _ _ _ (by decide)

/-- The loop changes the written bytes of `TXBUF` and nothing else. -/
theorem encPayload_state (k i : Nat) (s : State) (r : Word) :
    (encPayload k i s r).1 = { s with txbuf := (encPayload k i s r).1.txbuf } := by
  induction k generalizing i s r with
  | zero => rfl
  | succ k ih =>
    simp only [encPayload]
    rw [ih]
    rfl

/-- The loop keeps the canonical form of every buffer. -/
theorem encPayload_wf (k i : Nat) (s : State) (r : Word) (B : Buf) (h : (s.buf B).wf = true) :
    (((encPayload k i s r).1).buf B).wf = true := by
  induction k generalizing i s r with
  | zero => exact h
  | succ k ih => exact ih _ _ _ (State.memWrite_wf _ _ _ _ _ h)

/-- Inside its range the loop keeps `memWf`. -/
theorem encPayload_memWf (k i : Nat) (s : State) (r : Word) (hk : 4 + i + k ≤ Config.txcap) (h : s.memWf = true) :
    ((encPayload k i s r).1).memWf = true := by
  induction k generalizing i s r with
  | zero => exact h
  | succ k ih =>
    exact ih _ _ _ (by omega) (State.memWrite_memWf _ _ (by simp only [Config.capacity]; omega) h)

/-- The loop copies `PBUF[i .. i + k)` to `TXBUF[4 + i .. 4 + i + k)` and leaves every other byte. -/
theorem encPayload_txbuf (k i : Nat) (s : State) (r : Word) (j : Nat) (h : s.txbuf.wf = true) :
    ((encPayload k i s r).1).memRead .txbuf j =
      if 4 + i ≤ j ∧ j < 4 + i + k then s.memRead .pbuf (j - 4) else s.memRead .txbuf j := by
  induction k generalizing i s r with
  | zero => rw [if_neg (by omega)]; rfl
  | succ k ih =>
    have hw : (s.buf .txbuf).wf = true := h
    simp only [encPayload]
    rw [ih _ _ _ (State.memWrite_wf s .txbuf .txbuf _ _ hw), State.memRead_memWrite_otherBuf _ _ _ _ (by decide),
      State.memRead_memWrite _ _ _ _ hw]
    by_cases h1 : j = 4 + i
    · subst h1
      rw [if_neg (by omega), if_pos rfl, if_pos (by omega)]
      congr 1
      omega
    · by_cases h2 : 4 + i ≤ j ∧ j < 4 + i + (k + 1)
      · rw [if_pos (by omega), if_pos h2]
      · rw [if_neg (by omega), if_neg h1, if_neg h2]

/-! ### The decoder's loop -/

/-- The loop's checksum is the fold over the bytes of `RXBUF` it read. -/
theorem decPayloadCrc_eq (k i : Nat) (s : State) (r : Word) :
    decPayloadCrc k i s r = crcFold r (s.readFrom .rxbuf (4 + i) k) := by
  induction k generalizing i r with
  | zero => rfl
  | succ k ih => simp [decPayloadCrc, ih, State.readFrom, Nat.add_assoc]

@[simp] theorem decDeclared_setRcmd (s : State) (v : Byte) : decDeclared (s.setRcmd v) = decDeclared s := by simp [decDeclared]
@[simp] theorem decDeclared_setRlen (s : State) (v : Word) : decDeclared (s.setRlen v) = decDeclared s := by simp [decDeclared]

/-! ### The halves of a 16-bit value (20_memory.md R52) -/

theorem join_toNat (a b : Byte) : (join a b).toNat = a.toNat * 256 + b.toNat := by
  have hb : b.toNat < 2 ^ 8 := b.isLt
  rw [join, BitVec.toNat_append, ← Nat.shiftLeft_add_eq_or_of_lt hb, Nat.shiftLeft_eq]

theorem hi8_toNat (v : Word) : (hi8 v).toNat = v.toNat / 256 := by
  have hv : v.toNat < 65536 := v.isLt
  rw [hi8, BitVec.extractLsb'_toNat, Nat.shiftRight_eq_div_pow]
  omega

theorem lo8_toNat (v : Word) : (lo8 v).toNat = v.toNat % 256 := by
  rw [lo8, BitVec.extractLsb'_toNat, Nat.shiftRight_zero]

/-- Joining a value's two halves gives the value back. -/
@[simp] theorem join_hi8_lo8 (v : Word) : join (hi8 v) (lo8 v) = v := by
  apply BitVec.eq_of_toNat_eq
  rw [join_toNat, hi8_toNat, lo8_toNat]
  omega

@[simp] theorem hi8_join (a b : Byte) : hi8 (join a b) = a := by
  have hb : b.toNat < 256 := b.isLt
  apply BitVec.eq_of_toNat_eq
  rw [hi8_toNat, join_toNat]
  omega

@[simp] theorem lo8_join (a b : Byte) : lo8 (join a b) = b := by
  have hb : b.toNat < 256 := b.isLt
  apply BitVec.eq_of_toNat_eq
  rw [lo8_toNat, join_toNat]
  omega

end Sys2Proof.Machine
end

