-- ==== Sys2Proof/Laws/Step.lean ====
section
/-! SUPPORT. Once per meaning: everything it can answer. Later proofs cite these in the place of unfolding. -/

namespace Sys2Proof.Machine

/-! ### The meanings -/

/-- The one answer of `CRC.INIT`. -/
theorem execCrcInit_cases {s t : State} (h : execCrcInit s = .next t) : t = s.setCrc Config.crcInit := by
  cases h; rfl

/-- The one answer of `CRC.BYTE`. -/
theorem execCrcByte_cases {b : Byte} {s t : State} (h : execCrcByte b s = .next t) : t = s.setCrc (crcByte s.crc b) := by
  cases h; rfl

/-- The state in which `ENC` has written the frame into `TXBUF` and not yet a register. -/
def encFramed (c : Byte) (s : State) : State :=
  let body := encPayload s.plen.toNat 0 (encHeader c s.plen s) (encHeaderCrc c s.plen)
  (body.1.memWrite .txbuf (4 + s.plen.toNat) (hi8 body.2)).memWrite .txbuf (5 + s.plen.toNat) (lo8 body.2)

/-- The checksum `ENC` computes. -/
def encCrc (c : Byte) (s : State) : Word :=
  (encPayload s.plen.toNat 0 (encHeader c s.plen s) (encHeaderCrc c s.plen)).2

/-- `ENC` when the payload is too long. -/
theorem execEnc_oversize {c : Byte} {s : State} (h : 1024 < s.plen.toNat) :
    execEnc c s = .next ((s.setTxlen 0).report .stOversize) := by
  simp [execEnc, h]

/-- `ENC` when the payload fits. -/
theorem execEnc_fits {c : Byte} {s : State} (h : s.plen.toNat ≤ 1024) :
    execEnc c s = .next ((((encFramed c s).setTxlen (6 + s.plen)).setCrc (encCrc c s)).report .stOk) := by
  simp only [execEnc, Config.maxPayload, if_neg (Nat.not_lt.mpr h)]
  rfl

/-- The two answers of `ENC`. -/
theorem execEnc_cases {c : Byte} {s t : State} (h : execEnc c s = .next t) :
    (1024 < s.plen.toNat ∧ t = (s.setTxlen 0).report .stOversize) ∨
    (s.plen.toNat ≤ 1024 ∧ t = (((encFramed c s).setTxlen (6 + s.plen)).setCrc (encCrc c s)).report .stOk) := by
  by_cases hn : s.plen.toNat ≤ 1024
  · rw [execEnc_fits hn] at h; cases h; exact .inr ⟨hn, rfl⟩
  · rw [execEnc_oversize (by omega)] at h; cases h; exact .inl ⟨by omega, rfl⟩

@[simp] theorem decPayloadCrc_cleared (k i : Nat) (s : State) (v : Byte) (w : Word) (r : Word) :
    decPayloadCrc k i ((s.setRcmd v).setRlen w) r = decPayloadCrc k i s r := by
  induction k generalizing i r with
  | zero => rfl
  | succ k ih => simp [decPayloadCrc, ih]

@[simp] theorem decComputed_cleared (s : State) (v : Byte) (w : Word) :
    decComputed ((s.setRcmd v).setRlen w) = decComputed s := by
  simp [decComputed]

@[simp] theorem decReceived_cleared (s : State) (v : Byte) (w : Word) :
    decReceived ((s.setRcmd v).setRlen w) = decReceived s := by
  simp [decReceived]

/-- The six answers of `DEC`, in the order of its checks (42_decode.md R144). -/
theorem execDec_cases {s t : State} (h : execDec s = .next t) :
    let s0 := (s.setRcmd 0).setRlen 0
    let N := (decDeclared s).toNat
    (1030 < s.rxlen.toNat ∧ t = s0.report .stRxlen) ∨
    (s.rxlen.toNat < 6 ∧ t = s0.report .stShort) ∨
    (6 ≤ s.rxlen.toNat ∧ s.rxlen.toNat ≤ 1030 ∧ s.memRead .rxbuf 0 ≠ 0xAA ∧ t = s0.report .stMarker) ∨
    (6 ≤ s.rxlen.toNat ∧ s.rxlen.toNat ≤ 1030 ∧ s.memRead .rxbuf 0 = 0xAA ∧ s.rxlen.toNat < 6 + N ∧
      t = s0.report .stTrunc) ∨
    (s.rxlen.toNat ≤ 1030 ∧ s.memRead .rxbuf 0 = 0xAA ∧ 6 + N ≤ s.rxlen.toNat ∧ decComputed s ≠ decReceived s ∧
      t = (s0.setCrc (decComputed s)).report .stCrc) ∨
    (s.rxlen.toNat ≤ 1030 ∧ s.memRead .rxbuf 0 = 0xAA ∧ 6 + N ≤ s.rxlen.toNat ∧ decComputed s = decReceived s ∧
      t = (((s0.setCrc (decComputed s)).setRcmd (s.memRead .rxbuf 1)).setRlen (decDeclared s)).report .stOk) := by
  intro s0 N
  unfold execDec at h
  simp only [State.setRlen_memRead, State.setRcmd_memRead, decDeclared_setRlen, decDeclared_setRcmd,
    decComputed_cleared, decReceived_cleared, Config.rxcap, Config.minFrame, Config.start, Config.overhead] at h
  split at h
  · cases h; exact .inl ⟨by omega, rfl⟩
  split at h
  · cases h; exact .inr (.inl ⟨by omega, rfl⟩)
  split at h
  · rename_i hm; cases h; exact .inr (.inr (.inl ⟨by omega, by omega, hm, rfl⟩))
  rename_i hm
  have hm : s.memRead .rxbuf 0 = 0xAA := Decidable.not_not.mp hm
  split at h
  · cases h; exact .inr (.inr (.inr (.inl ⟨by omega, by omega, hm, by omega, rfl⟩)))
  split at h
  · rename_i hc; cases h; exact .inr (.inr (.inr (.inr (.inl ⟨by omega, hm, by omega, hc, rfl⟩))))
  · rename_i hc; cases h
    exact .inr (.inr (.inr (.inr (.inr ⟨by omega, hm, by omega, Decidable.not_not.mp hc, rfl⟩))))

/-! ### Moves, events and the step -/

theorem issueWord_legal {w : Word} {i : Instr} (h : decodeOp w = .legal i) (s : State) : issueWord w s = exec i s := by
  simp [issueWord, h]

theorem issueWord_illegal {w : Word} (h : decodeOp w = .illegal) (s : State) :
    issueWord w s = .next (s.report .stIllegal) := by
  simp [issueWord, h, execIllegal]

theorem stepEvent_idle {s : State} (h : s.pending = []) : stepEvent s = .next s := by
  simp [stepEvent, h]

theorem stepEvent_cons {s : State} {e : Event} {es : List Event} (h : s.pending = e :: es) :
    stepEvent s = takeEvent e (s.setPending es) := by
  simp [stepEvent, h]

/-- What a step can do: nothing, an operation, an illegal word, a host write or read, or a reset. -/
theorem stepEvent_cases {s t : State} (h : stepEvent s = .next t) :
    (s.pending = [] ∧ t = s) ∨
    ∃ e es, s.pending = e :: es ∧
      ((∃ w i, e = .move (.issue w) ∧ decodeOp w = .legal i ∧ exec i (s.setPending es) = .next t) ∨
       (∃ w, e = .move (.issue w) ∧ decodeOp w = .illegal ∧ t = (s.setPending es).report .stIllegal) ∨
       (∃ v, e = .move (.wrPlen v) ∧ t = (s.setPending es).setPlen v) ∨
       (∃ v, e = .move (.wrRxlen v) ∧ t = (s.setPending es).setRxlen v) ∨
       (∃ i b, e = .move (.wrPbuf i b) ∧ t = (s.setPending es).memWrite .pbuf i.val b) ∨
       (∃ i b, e = .move (.wrRxbuf i b) ∧ t = (s.setPending es).memWrite .rxbuf i.val b) ∨
       (∃ m a, e = .move m ∧ t = (s.setPending es).setAnswer a) ∨
       (e = .reset ∧ t = (s.setPending es).resetEvent)) := by
  unfold stepEvent at h
  split at h
  · rename_i hp; cases h; exact .inl ⟨hp, rfl⟩
  · rename_i e es hp
    refine .inr ⟨e, es, hp, ?_⟩
    cases e with
    | reset => cases h; exact .inr (.inr (.inr (.inr (.inr (.inr (.inr ⟨rfl, rfl⟩))))))
    | move m =>
      cases m with
      | issue w =>
        simp only [takeEvent, makeMove, issueWord] at h
        split at h
        · rename_i i hi; exact .inl ⟨w, i, rfl, hi, h⟩
        · rename_i hi; cases h; exact .inr (.inl ⟨w, rfl, hi, rfl⟩)
      | wrPlen v => cases h; exact .inr (.inr (.inl ⟨v, rfl, rfl⟩))
      | wrRxlen v => cases h; exact .inr (.inr (.inr (.inl ⟨v, rfl, rfl⟩)))
      | wrPbuf i b => cases h; exact .inr (.inr (.inr (.inr (.inl ⟨i, b, rfl, rfl⟩))))
      | wrRxbuf i b => cases h; exact .inr (.inr (.inr (.inr (.inr (.inl ⟨i, b, rfl, rfl⟩)))))
      | rdReg r => cases h; exact .inr (.inr (.inr (.inr (.inr (.inr (.inl ⟨_, _, rfl, rfl⟩))))))
      | rdPbuf i => cases h; exact .inr (.inr (.inr (.inr (.inr (.inr (.inl ⟨_, _, rfl, rfl⟩))))))
      | rdTxbuf i => cases h; exact .inr (.inr (.inr (.inr (.inr (.inr (.inl ⟨_, _, rfl, rfl⟩))))))
      | rdRxbuf i => cases h; exact .inr (.inr (.inr (.inr (.inr (.inr (.inl ⟨_, _, rfl, rfl⟩))))))

end Sys2Proof.Machine
end

