-- ==== Sys2Proof/Laws/Operations.lean ====
section
/-! SUPPORT. What `ENC` leaves in `TXBUF` byte by byte, and the checksums `ENC` and `DEC` compute as checksums of
byte sequences (41_encode.md R133, 42_decode.md R143). -/

namespace Sys2Proof.Machine

/-! ### ENC -/

theorem encHeader_wf (c : Byte) (n : Word) (s : State) (B : Buf) (h : (s.buf B).wf = true) :
    ((encHeader c n s).buf B).wf = true := by
  unfold encHeader
  exact State.memWrite_wf _ _ _ _ _ (State.memWrite_wf _ _ _ _ _ (State.memWrite_wf _ _ _ _ _
    (State.memWrite_wf _ _ _ _ _ h)))

theorem encHeader_memWf (c : Byte) (n : Word) (s : State) (h : s.memWf = true) : (encHeader c n s).memWf = true := by
  unfold encHeader
  exact State.memWrite_memWf _ _ (by decide) (State.memWrite_memWf _ _ (by decide)
    (State.memWrite_memWf _ _ (by decide) (State.memWrite_memWf _ _ (by decide) h)))

theorem encHeader_pbuf (c : Byte) (n : Word) (s : State) (i : Nat) :
    (encHeader c n s).memRead .pbuf i = s.memRead .pbuf i := rfl

/-- The header bytes of the frame and every other byte of `TXBUF`. -/
theorem encHeader_txbuf (c : Byte) (n : Word) (s : State) (j : Nat) (h : s.txbuf.wf = true) :
    (encHeader c n s).memRead .txbuf j =
      if j = 3 then lo8 n else if j = 2 then hi8 n else if j = 1 then c else if j = 0 then 0xAA
      else s.memRead .txbuf j := by
  have h0 : (s.buf .txbuf).wf = true := h
  have h1 := State.memWrite_wf s .txbuf .txbuf 0 Config.start h0
  have h2 := State.memWrite_wf _ .txbuf .txbuf 1 c h1
  have h3 := State.memWrite_wf _ .txbuf .txbuf 2 (hi8 n) h2
  unfold encHeader
  rw [State.memRead_memWrite _ _ _ _ h3, State.memRead_memWrite _ _ _ _ h2, State.memRead_memWrite _ _ _ _ h1,
    State.memRead_memWrite _ _ _ _ h0]

/-- A write to `TXBUF` of a state that differs from `s` in `TXBUF` only. -/
theorem onlyTxbuf_memWrite {s z : State} (h : z = { s with txbuf := z.txbuf }) (i : Nat) (b : Byte) :
    z.memWrite .txbuf i b = { s with txbuf := (z.memWrite .txbuf i b).txbuf } := by
  generalize z.txbuf = m at h
  subst h
  rfl

/-- Writing the frame changes the written bytes of `TXBUF` and nothing else. -/
theorem encFramed_state (c : Byte) (s : State) : encFramed c s = { s with txbuf := (encFramed c s).txbuf } := by
  have h : (encPayload s.plen.toNat 0 (encHeader c s.plen s) (encHeaderCrc c s.plen)).1 =
      { s with txbuf := (encPayload s.plen.toNat 0 (encHeader c s.plen s) (encHeaderCrc c s.plen)).1.txbuf } :=
    encPayload_state _ _ _ _
  exact onlyTxbuf_memWrite (onlyTxbuf_memWrite h _ _) _ _

/-- Every byte of `TXBUF` once the frame is written (41_encode.md R136). -/
theorem encFramed_txbuf (c : Byte) (s : State) (j : Nat) (h : s.txbuf.wf = true) :
    (encFramed c s).memRead .txbuf j =
      if j = 5 + s.plen.toNat then lo8 (encCrc c s) else if j = 4 + s.plen.toNat then hi8 (encCrc c s)
      else if 4 ≤ j ∧ j < 4 + s.plen.toNat then s.memRead .pbuf (j - 4)
      else if j = 3 then lo8 s.plen else if j = 2 then hi8 s.plen else if j = 1 then c else if j = 0 then 0xAA
      else s.memRead .txbuf j := by
  have h1 := encHeader_wf c s.plen s .txbuf h
  have h2 := encPayload_wf s.plen.toNat 0 _ (encHeaderCrc c s.plen) .txbuf h1
  have h3 := State.memWrite_wf _ .txbuf .txbuf (4 + s.plen.toNat) (hi8 (encCrc c s)) h2
  have hp := encPayload_txbuf s.plen.toNat 0 (encHeader c s.plen s) (encHeaderCrc c s.plen) j h1
  rw [encHeader_pbuf, encHeader_txbuf c s.plen s j h] at hp
  have e : encFramed c s =
      ((encPayload s.plen.toNat 0 (encHeader c s.plen s) (encHeaderCrc c s.plen)).1.memWrite .txbuf
        (4 + s.plen.toNat) (hi8 (encCrc c s))).memWrite .txbuf (5 + s.plen.toNat) (lo8 (encCrc c s)) := rfl
  rw [e, State.memRead_memWrite _ _ _ _ h3, State.memRead_memWrite _ _ _ _ h2, hp]

/-- Writing the frame keeps `memWf` when the payload fits. -/
theorem encFramed_memWf (c : Byte) (s : State) (hn : s.plen.toNat ≤ 1024) (h : s.memWf = true) :
    (encFramed c s).memWf = true := by
  unfold encFramed
  exact State.memWrite_memWf _ _ (by simp only [Config.capacity, Config.txcap]; omega)
    (State.memWrite_memWf _ _ (by simp only [Config.capacity, Config.txcap]; omega)
      (encPayload_memWf _ _ _ _ (by simp only [Config.txcap]; omega) (encHeader_memWf _ _ _ h)))

/-- The checksum `ENC` computes is that of the frame's body. -/
theorem encCrc_eq (c : Byte) (s : State) :
    encCrc c s = crc16 (frameBody c (s.bytes .pbuf 0 s.plen.toNat)) := by
  have h : (encHeader c s.plen s).readFrom .pbuf 0 s.plen.toNat = s.readFrom .pbuf 0 s.plen.toNat :=
    State.readFrom_congr fun _ _ => rfl
  rw [encCrc, encPayload_crc, h]
  simp [crc16, frameBody, crcFold, encHeaderCrc, State.bytes]

/-- `6 + PLEN` does not wrap when the payload fits (41_encode.md R136). -/
theorem encLength_toNat (s : State) (hn : s.plen.toNat ≤ 1024) : (6 + s.plen).toNat = 6 + s.plen.toNat := by
  have h6 : (6 : Word).toNat = 6 := rfl
  rw [BitVec.toNat_add, h6]
  omega

/-! ### DEC -/

/-- The checksum `DEC` recomputes is that of the body `RXBUF[1 .. 4 + N)`. -/
theorem decComputed_eq (s : State) :
    decComputed s = crc16 (s.bytes .rxbuf 1 (4 + (decDeclared s).toNat)) := by
  have e : 4 + (decDeclared s).toNat - 1 = (decDeclared s).toNat + 1 + 1 + 1 := by omega
  rw [decComputed, decPayloadCrc_eq, crc16, State.bytes, e]
  simp only [State.readFrom, crcFold_cons, decDeclared, hi8_join, lo8_join, Nat.reduceAdd, Nat.add_zero]

/-- The declared length as a number. -/
theorem decDeclared_toNat (s : State) :
    (decDeclared s).toNat = (s.memRead .rxbuf 2).toNat * 256 + (s.memRead .rxbuf 3).toNat :=
  join_toNat _ _

/-! ### Reads of states with the same written bytes -/

/-- Reads depend on a buffer's written bytes and on the reset's number only. -/
theorem State.memRead_congr {s t : State} {B : Buf} (h : t.buf B = s.buf B) (hd : t.draw = s.draw) (i : Nat) :
    t.memRead B i = s.memRead B i := by
  simp only [State.memRead, h, hd]

end Sys2Proof.Machine
end

