-- ==== Sys2Proof/Laws/Payload.lean ====
section
/-! SUPPORT. Once per function of the payload software: what an append and a read can answer, and that the encoding of a
character is recognised (45_payload_software.md R183, R190, R192). -/

namespace Sys2Proof.Machine

/-! ### The serializer -/

theorem appendBytes_fits {p : Builder} {bs : List Byte} (h : p.bytes.length + bs.length ≤ p.max) :
    appendBytes p bs = ({ p with bytes := p.bytes ++ bs }, true) := by
  simp [appendBytes, Nat.not_lt.mpr h]

theorem appendBytes_full {p : Builder} {bs : List Byte} (h : p.max < p.bytes.length + bs.length) :
    appendBytes p bs = (p, false) := by
  simp [appendBytes, h]

/-- An append that succeeded has put its bytes at the end. -/
theorem appendBytes_cases {p q : Builder} {bs : List Byte} (h : appendBytes p bs = (q, true)) :
    p.bytes.length + bs.length ≤ p.max ∧ q = { p with bytes := p.bytes ++ bs } := by
  by_cases hp : p.bytes.length + bs.length ≤ p.max
  · rw [appendBytes_fits hp] at h
    cases h
    exact ⟨hp, rfl⟩
  · rw [appendBytes_full (by omega)] at h
    cases h

/-! ### The deserializer -/

theorem readBytes_fits {c : Cursor} {n : Nat} (h : n ≤ remaining c) :
    readBytes c n = ({ c with pos := c.pos + n }, some ((c.buf.drop c.pos).take n)) := by
  simp [readBytes, h, slice]

theorem readBytes_short {c : Cursor} {n : Nat} (h : remaining c < n) : readBytes c n = (c, none) := by
  simp [readBytes, Nat.not_le.mpr h]

/-- Bytes that stand at the cursor are read whole. -/
theorem readBytes_at (pre bs rest : List Byte) :
    readBytes ⟨pre ++ bs ++ rest, pre.length⟩ bs.length = (⟨pre ++ bs ++ rest, pre.length + bs.length⟩, some bs) := by
  have h : bs.length ≤ remaining ⟨pre ++ bs ++ rest, pre.length⟩ := by
    simp only [remaining, List.length_append]
    omega
  rw [readBytes_fits h]
  simp [List.append_assoc]

/-- A typed read is the read of its bytes. -/
theorem readValue_of {c c' : Cursor} {n : Nat} {bs : List Byte} (h : readBytes c n = (c', some bs)) :
    readValue c n = (c', some (BitVec.ofNat (8 * n) (bigEndian bs))) := by
  simp [readValue, h]

theorem readValue_short {c : Cursor} {n : Nat} (h : remaining c < n) : readValue c n = (c, none) := by
  simp [readValue, readBytes_short h]

/-! ### UTF-8 -/

theorem utf8OfChar_length_pos (c : Char) : 0 < (utf8OfChar c).length := by
  unfold utf8OfChar
  simp only
  repeat' split
  all_goals simp

/-- The encoding of a character, whatever follows it, is recognised as that character. -/
theorem utf8Candidate_utf8OfChar (c : Char) (s : List Byte) :
    utf8Candidate (utf8OfChar c ++ s) = some (c.toNat, (utf8OfChar c).length) := by
  have hc : c.toNat < 0x110000 := by
    have := c.valid
    simp only [UInt32.isValidChar, Nat.isValidChar] at this
    have e : c.toNat = c.val.toNat := rfl
    omega
  have tail (x : Nat) : (BitVec.ofNat 8 (0x80 + x % 64) : Byte).toNat % 64 = x % 64 := by
    rw [BitVec.toNat_ofNat]
    omega
  have byte {x : Nat} (h : x < 256) : (BitVec.ofNat 8 x : Byte).toNat = x := by
    rw [BitVec.toNat_ofNat]
    omega
  have at0 (a : Byte) (s : List Byte) : byteAt (a :: s) 0 = a := rfl
  have at1 (a b : Byte) (s : List Byte) : byteAt (a :: b :: s) 1 = b := rfl
  have at2 (a b d : Byte) (s : List Byte) : byteAt (a :: b :: d :: s) 2 = d := rfl
  unfold utf8OfChar
  simp only
  generalize c.toNat = n at hc
  by_cases h1 : n < 0x80
  · simp only [if_pos h1, List.cons_append, List.nil_append, utf8Candidate, byte (show n < 256 by omega)]
    rfl
  rw [if_neg h1]
  by_cases h2 : n < 0x800
  · simp only [if_pos h2, List.cons_append, List.nil_append, utf8Candidate, byte (show 0xC0 + n / 64 < 256 by omega),
      utf8Tail, at0, tail]
    rw [if_neg (by omega), if_pos (by omega)]
    simp only [List.length_cons, List.length_nil, Option.some.injEq, Prod.mk.injEq, Nat.reducePow, Nat.div_one,
      and_true]
    omega
  rw [if_neg h2]
  by_cases h3 : n < 0x10000
  · simp only [if_pos h3, List.cons_append, List.nil_append, utf8Candidate, byte (show 0xE0 + n / 4096 < 256 by omega),
      utf8Tail, at0, at1, tail]
    rw [if_neg (by omega), if_neg (by omega), if_pos (by omega)]
    simp only [List.length_cons, List.length_nil, Option.some.injEq, Prod.mk.injEq, Nat.reducePow, Nat.div_one,
      and_true]
    omega
  · simp only [if_neg h3, List.cons_append, List.nil_append, utf8Candidate,
      byte (show 0xF0 + n / 262144 < 256 by omega), utf8Tail, at0, at1, at2, tail]
    rw [if_neg (by omega), if_neg (by omega), if_neg (by omega)]
    simp only [List.length_cons, List.length_nil, Option.some.injEq, Prod.mk.injEq, Nat.reducePow, Nat.div_one,
      and_true]
    omega

theorem utf8Head_utf8OfChar (c : Char) (s : List Byte) :
    utf8Head (utf8OfChar c ++ s) = some (c, (utf8OfChar c).length) := by
  have e : Char.ofNat c.toNat = c := by simp
  simp [utf8Head, utf8Candidate_utf8OfChar, e]

/-- At a valid character the text goes on with the markers of the invalid stretch before it and the character. -/
theorem textFrom_char (fuel : Nat) (bad : List Byte) (c : Char) (s : List Byte) :
    textFrom (fuel + 1) bad (utf8OfChar c ++ s) = markersFor bad ++ c :: textFrom fuel [] s := by
  obtain ⟨b, u, hu⟩ : ∃ b u, utf8OfChar c = b :: u := by
    cases h : utf8OfChar c with
    | nil => exact absurd (utf8OfChar_length_pos c) (by simp [h])
    | cons b u => exact ⟨b, u, rfl⟩
  have hh := utf8Head_utf8OfChar c s
  rw [hu] at hh ⊢
  simp only [List.cons_append] at hh ⊢
  simp [textFrom, hh]

/-- At a byte where no encoding starts the invalid stretch grows. -/
theorem textFrom_invalid {b : Byte} {s : List Byte} (h : utf8Head (b :: s) = none) (fuel : Nat) (bad : List Byte) :
    textFrom (fuel + 1) bad (b :: s) = textFrom fuel (bad ++ [b]) s := by
  simp [textFrom, h]

/-- The markers of a non-empty stretch: at least one, at most one a byte. -/
theorem markersFor_bounds {bad : List Byte} (h : bad ≠ []) :
    ∃ k, 1 ≤ k ∧ k ≤ bad.length ∧ markersFor bad = List.replicate k Config.replacementMarker := by
  cases bad with
  | nil => exact absurd rfl h
  | cons b bad =>
    refine ⟨_, ?_, ?_, rfl⟩
    · omega
    · have := Nat.mod_lt (Config.invalidSequences (b :: bad)) (show 0 < (b :: bad).length by simp)
      omega

end Sys2Proof.Machine
end

