-- ==== Sys2Proof/Laws/PerInstr.lean ====
section
/-! SUPPORT. One lemma per operation: its word lies in its row of the operation map (30_encoding.md R91) and
its fields are well formed (R90, R93). -/

namespace Sys2Proof.Laws.Encoding

/-- The `match` and `mask` of an operation's row (R91). -/
def row : Instr → Word × Word
  | .crcInit => (0x1000, 0xFFFF)
  | .crcByte _ => (0x2000, 0xFF00)
  | .enc _ => (0x3000, 0xFF00)
  | .dec => (0x4000, 0xFFFF)

/-- The word of `i` selects its own row, and its fields are those of `i` and well formed. -/
def Statement (i : Instr) : Prop :=
  encode i &&& (row i).2 = (row i).1 ∧ fieldsOfWord (encode i) = i.fields ∧ i.wellFormed = true

theorem crcInit : Statement .crcInit :=
  ⟨by decide, by decide, by decide⟩

theorem crcByte (b : Byte) : Statement (.crcByte b) := by
  have h : ∀ b : Byte, (0x2000 + b.setWidth 16 : Word) &&& 0xFF00 = 0x2000 ∧
      fieldsOfWord (0x2000 + b.setWidth 16) = ⟨2, 0, b⟩ := by decide
  exact ⟨(h b).1, (h b).2, rfl⟩

theorem enc (c : Byte) : Statement (.enc c) := by
  have h : ∀ c : Byte, (0x3000 + c.setWidth 16 : Word) &&& 0xFF00 = 0x3000 ∧
      fieldsOfWord (0x3000 + c.setWidth 16) = ⟨3, 0, c⟩ := by decide
  exact ⟨(h c).1, (h c).2, rfl⟩

theorem dec : Statement .dec :=
  ⟨by decide, by decide, by decide⟩

end Sys2Proof.Laws.Encoding
end

