-- ==== Sys2Proof/Tests/Slice0.lean ====
section
/-! SUPPORT. Tests with expected values from spec/95_test_vectors.md (its ids in the comments), a smoke test of
well-formedness, and for each statement with hypotheses a state and operands that meet them. -/

namespace Sys2Proof.Tests

open Sys2Proof Sys2Proof.Machine Sys2Proof.Claim

/-! ## Helpers -/

/-- A buffer whose first bytes are written. -/
def written (bs : List Byte) : Mem :=
  (List.range bs.length).zip bs

/-- The reset state with a candidate buffer and `CRC = 0x1234`, as in section 2.3 of the vectors. -/
def received (bs : List Byte) : State :=
  { State.reset with rxbuf := written bs, rxlen := BitVec.ofNat 16 bs.length, crc := 0x1234 }

/-- The reset state with a payload to encode. -/
def loaded (bs : List Byte) : State :=
  { State.reset with pbuf := written bs, plen := BitVec.ofNat 16 bs.length }

/-- The outcome is a next state with the property. -/
def nextHas (o : Host.Outcome State Fault Refusal) (p : State → Bool) : Bool :=
  match o with
  | .next t => p t
  | .fault _ => false
  | .refused _ => false

theorem next_of_nextHas {o : Host.Outcome State Fault Refusal} {p : State → Bool} (h : nextHas o p = true) :
    ∃ t, o = .next t ∧ p t = true := by
  cases o with
  | next t => exact ⟨t, rfl, h⟩
  | fault r => exact absurd h (by simp [nextHas])
  | refused r => exact absurd h (by simp [nextHas])

/-- `STATUS`, `RCMD`, `RLEN` and `CRC` after a `DEC`. -/
def decGives (s : State) (status rcmd : Byte) (rlen crc : Word) : Bool :=
  nextHas (exec .dec s) fun t => t.status == status && t.rcmd == rcmd && t.rlen == rlen && t.crc == crc

/-- The frame of S-2. -/
def blink : List Byte :=
  [0xAA, 0x11, 0x00, 0x02, 0x01, 0xF4, 0x4D, 0xCD]

/-- The next event is given, from the reset state. -/
def facing (e : Event) : State :=
  { State.reset with pending := [e] }

/-! ## Well-formedness: an ill-formed term for each check (30_encoding.md R90, R93, R95) -/

theorem test_wellFormed_accepts : (fieldsOfWord 0x1000).wellFormed = true ∧ (fieldsOfWord 0x30FF).wellFormed = true := by
  decide
theorem test_wellFormed_refuses_opc_0 : (Opw.wellFormed ⟨0, 0, 0⟩) = false := by decide
theorem test_wellFormed_refuses_opc_5 : (Opw.wellFormed ⟨5, 0, 0⟩) = false := by decide
theorem test_wellFormed_refuses_zero_field : (Opw.wellFormed ⟨3, 15, 0x11⟩) = false := by decide
theorem test_wellFormed_refuses_immediate : (Opw.wellFormed ⟨1, 0, 1⟩) = false := by decide

/-! A well-formed frame (R86): each of its four checks refused in turn. -/

theorem test_frame_accepted : wellFormedFrame blink = true := by decide +kernel
theorem test_frame_refused_short : wellFormedFrame [0xAA, 0x11, 0x00, 0x02, 0x01] = false := by decide
theorem test_frame_refused_marker : wellFormedFrame (blink.set 0 0x55) = false := by decide
theorem test_frame_refused_length : wellFormedFrame (blink ++ [0x55, 0x66]) = false := by decide +kernel
theorem test_frame_refused_checksum : wellFormedFrame (blink.set 7 0xCC) = false := by decide +kernel

/-! ## Decoding: words written out bit by bit from the patterns of R91, and W-9 to W-16 -/

theorem test_decode_crcInit : decodeOp 0b0001000000000000 = .legal .crcInit := by decide
theorem test_decode_crcByte : decodeOp 0b0010000000110001 = .legal (.crcByte 0x31) := by decide
theorem test_decode_enc : decodeOp 0b0011000000010001 = .legal (.enc 0x11) := by decide
theorem test_decode_dec : decodeOp 0b0100000000000000 = .legal .dec := by decide
theorem test_decode_illegal :
    [0x0000, 0xFFFF, 0x1001, 0x1100, 0x2100, 0x3F11, 0x4001, 0x5000, 0x8000, 0x0FFF].all
      (fun w : Word => decodeOp w == .illegal) = true := by decide

/-! ## The checksum unit -/

/-- K-5, K-7, K-9a, K-10, K-21. -/
theorem test_crc_vectors : crcRound 0x8000 = 0x1021 ∧ crcRound 0xFFFF = 0xEFDF ∧ crcByte 0xFFFF 0x01 = 0xF1D1 ∧
    crc16 [0x31, 0x32, 0x33, 0x34, 0x35, 0x36, 0x37, 0x38, 0x39] = 0x29B1 ∧ crc16 [0xFF, 0xFF] = 0x0000 ∧
    crc16Serial [0x11, 0x00, 0x02, 0x01, 0xF4] = 0x4DCD := by decide +kernel

/-- K-31. -/
theorem test_crcInit : nextHas (exec .crcInit { State.reset with crc := 0x1234, status := 5 })
    (fun t => t.crc == 0xFFFF && t.status == 5) = true := by decide

/-- K-33: it continues from the old value. -/
theorem test_crcByte_continues : nextHas (exec (.crcByte 0x56) { State.reset with crc := 0x1234 })
    (fun t => t.crc == 0x3C40) = true := by decide

/-- K-35. -/
theorem test_crcByte_keeps_status : nextHas (exec (.crcByte 0x00) { State.reset with status := 7 })
    (fun t => t.crc == 0xE1F0 && t.status == 7) = true := by decide

/-! ## The encoder -/

/-- E-2. -/
theorem test_enc_blink : nextHas (exec (.enc 0x11) (loaded [0x01, 0xF4]))
    (fun t => t.bytes .txbuf 0 8 == blink && t.txlen == 8 && t.crc == 0x4DCD && t.status == 0) = true := by decide +kernel

/-- E-10: 1025 bytes are refused and the old frame stays in the buffer. -/
theorem test_enc_oversize :
    nextHas (exec (.enc 0x11) { State.reset with plen := 1025, txlen := 8, txbuf := written blink, crc := 0x4DCD })
      (fun t => t.status == 1 && t.txlen == 0 && t.crc == 0x4DCD && t.txbuf == written blink) = true := by decide

/-- E-7: a payload byte equal to the marker is carried unchanged. -/
theorem test_frameEncode_marker_in_payload :
    frameEncode 0x22 [0xAA] = .frame [0xAA, 0x22, 0x00, 0x01, 0xAA, 0x79, 0x77] := by decide +kernel

/-! ## The decoder: each outcome, at the boundary of its check -/

/-- D-2, D-13: accepted, also with surplus bytes. -/
theorem test_dec_accepts : decGives (received blink) 0 0x11 2 0x4DCD = true ∧
    decGives (received (blink ++ [0x55, 0x66])) 0 0x11 2 0x4DCD = true := by decide +kernel

/-- D-24, D-22, D-11, D-26, D-15, D-9, D-32. -/
theorem test_dec_rejects : decGives (received (blink.set 7 0xCC)) 5 0 0 0x4DCD = true ∧
    decGives (received (blink.set 3 0x00)) 5 0 0 0xB8CF = true ∧
    decGives (received (blink.take 7)) 4 0 0 0x1234 = true ∧
    decGives (received [0xAA, 0x01, 0xFF, 0xFF, 0x00, 0x00]) 4 0 0 0x1234 = true ∧
    decGives (received [0x55, 0x01, 0x00, 0x00, 0xFB, 0xAC]) 3 0 0 0x1234 = true ∧
    decGives (received (blink.take 5)) 2 0 0 0x1234 = true ∧
    decGives { received blink with rxlen := 1031, rcmd := 0x11, rlen := 2 } 6 0 0 0x1234 = true := by decide +kernel

/-! ## Events -/

/-- H-4 through the step: `DEC` straight after reset. -/
theorem test_step_dec_after_reset : nextHas (step (State.reset.withFetchWord 16 0x4000))
    (fun t => t.status == 2 && t.crc == 0xFFFF && t.pending == []) = true := by decide

/-- W-7 through the step. -/
theorem test_step_illegal : nextHas (step { facing (.move (.issue 0x0000)) with crc := 0x4DCD, txlen := 8 })
    (fun t => t.status == 7 && t.crc == 0x4DCD && t.txlen == 8) = true := by decide

/-- H-7: a write of the last byte of `RXBUF` is read back. -/
theorem test_write_rxbuf_last : nextHas (runMoves [.wrRxbuf 1029 0x5A, .rdRxbuf 1029] State.reset)
    (fun t => t.answer == some (.byte 0x5A) && t.rxlen == 0) = true := by decide

/-- P-2, moves 1 to 4, the write moves as `LD.PBUF`; the loopback and the decode of moves 6 and 7. -/
theorem test_encode_loopback_decode :
    nextHas (runMoves (loadPbuf [0x01, 0xF4] ++ [.issue 0x3011]) State.reset) (fun s =>
      nextHas (runMoves (loopback s ++ [.issue 0x4000]) s) fun t =>
        t.status == 0 && t.rcmd == 0x11 && t.rlen == 2 && t.bytes .rxbuf 4 6 == [0x01, 0xF4]) = true := by decide +kernel

/-- P-1 as `CRC.SEQ`, and D-2 as `LD.RX` and `DEC`. -/
theorem test_pseudo_operations :
    nextHas (runMoves (crcSeq [0x31, 0x32, 0x33, 0x34, 0x35, 0x36, 0x37, 0x38, 0x39]) State.reset)
      (fun t => t.crc == 0x29B1 && t.status == 0) = true ∧
    nextHas (runMoves (loadRx blink ++ [.issue 0x4000]) State.reset)
      (fun t => t.rxlen == 8 && t.status == 0 && t.rcmd == 0x11 && t.rlen == 2) = true := by decide +kernel

/-- 70_reset_and_hazards.md R250: the reset input clears results and moves on to a new draw. -/
theorem test_reset_event : nextHas (step { received blink with rcmd := 0x11, pending := [.reset, .move (.issue 0x4000)] })
    (fun t => t.crc == 0xFFFF && t.rxlen == 0 && t.rcmd == 0 && t.rxbuf == [] && t.draw == 1 &&
      t.pending == [.move (.issue 0x4000)]) = true := by decide

/-! ## The software around the block -/

/-- S-1 to S-4: the payloads and frames of the scenarios. -/
theorem test_scenario_frames : pingFrame = .frame [0xAA, 0x01, 0x00, 0x00, 0xFB, 0xAC] ∧
    ledBlinkFrame 500 = .frame blink ∧ oledTextPayload 10 20 ['H', 'i'] = some [0x0A, 0x14, 0x02, 0x48, 0x69] ∧
    encoderDataPayload 42 5 1 = [0x00, 0x2A, 0x05, 0x01] := by decide +kernel

/-- S-3 and S-4, parsed: the text "Hi", and position 42, velocity 5, button pressed; a missing button is "not
pressed" (R201). E-9: position -42 is `FF D6`. -/
theorem test_scenario_parses : (readString ⟨[0x0A, 0x14, 0x02, 0x48, 0x69], 2⟩) = (⟨[0x0A, 0x14, 0x02, 0x48, 0x69], 5⟩, some ['H', 'i']) ∧
    parseEncoderData [0x00, 0x2A, 0x05, 0x01] = some ⟨42, 5, true⟩ ∧
    parseEncoderData [0xFF, 0xD6, 0x05] = some ⟨-42, 5, false⟩ := by decide

/-- UTF-8 of one, two, three and four bytes (the standard's own examples: A, U+00E9, U+20AC, U+1F600); an overlong form
and a surrogate begin no character. -/
theorem test_utf8 : utf8 [Char.ofNat 0x41, Char.ofNat 0xE9, Char.ofNat 0x20AC, Char.ofNat 0x1F600] =
      [0x41, 0xC3, 0xA9, 0xE2, 0x82, 0xAC, 0xF0, 0x9F, 0x98, 0x80] ∧
    textOf [0x41, 0xC3, 0xA9, 0xE2, 0x82, 0xAC, 0xF0, 0x9F, 0x98, 0x80] =
      [Char.ofNat 0x41, Char.ofNat 0xE9, Char.ofNat 0x20AC, Char.ofNat 0x1F600] ∧
    utf8Head [0xC0, 0x80] = none ∧ utf8Head [0xED, 0xA0, 0x80] = none := by decide

/-- R192: of 48 FF 69 only the invalid byte is replaced, by one marker, whichever it is. -/
theorem test_replaced_byte : readString ⟨[0x03, 0x48, 0xFF, 0x69], 0⟩ =
    (⟨[0x03, 0x48, 0xFF, 0x69], 4⟩, some ['H', Config.replacementMarker, 'i']) := by
  have h : textOf [0x48, 0xFF, 0x69] = ['H'] ++ markersFor [0xFF] ++ ['i'] := rfl
  have m : markersFor [0xFF] = [Config.replacementMarker] := by simp [markersFor, Nat.mod_one]
  show (_, some (textOf [0x48, 0xFF, 0x69])) = _
  rw [h, m]
  rfl

/-- R202: the code's byte in the payload, whatever value it has. -/
theorem test_error_payload (e : ErrorCode) : (addErrorCode newBuilder e).1.bytes = [Config.errorCodeValue e] := rfl

/-- R192 and C8: a string whose bytes are not all there moves no cursor. -/
theorem test_readString_short : readString ⟨[0x03, 0x48, 0x69], 0⟩ = (⟨[0x03, 0x48, 0x69], 0⟩, none) := by decide

/-! ## Witnesses: the hypotheses of each statement are met -/

/-- ChangingOneByteChangesTheChecksum. -/
theorem witness_changed_byte : (0x01 : Byte) ≠ 0x03 := by decide

/-- ChecksumThroughOperationsIsCrc16: `CRC.BYTE`, an illegal word, a write and a read. -/
theorem witness_keepsChecksum :
    ∀ m ∈ [Move.issue 0x2031, .issue 0x0000, .wrPlen 3, .wrRxbuf 0 1, .rdReg .crc], KeepsChecksum m := by
  intro m hm
  simp only [List.mem_cons, List.not_mem_nil, or_false] at hm
  rcases hm with rfl | rfl | rfl | rfl | rfl
  · intro i h
    exact ⟨0x31, by simpa using ((show decodeOp 0x2031 = .legal (.crcByte 0x31) by decide).symm.trans h).symm⟩
  · intro i h
    exact absurd ((show decodeOp 0x0000 = .illegal by decide).symm.trans h) (by simp)
  · trivial
  · trivial
  · trivial

/-- DecodeInvertsEncode, both clauses. -/
theorem witness_decode_encode : (Instr.enc 0xFF).wellFormed = true ∧ decodeOp 0x30FF = .legal (.enc 0xFF) := by decide

/-- StepPerformsTheIssuedOperation and IllegalWordWritesStatusOnly: a legal and an illegal word to come. -/
theorem witness_issue : (facing (.move (.issue 0x2031))).pending = [.move (.issue 0x2031)] ∧
    decodeOp 0x2031 = .legal (.crcByte 0x31) ∧ (facing (.move (.issue 0x4001))).pending = [.move (.issue 0x4001)] ∧
    decodeOp 0x4001 = .illegal := by decide

/-- PlacedWordRunsNext. -/
theorem witness_placed : decodeTableWord 16 0x3011 = some (.enc 0x11) := by decide

/-- IdleBlockKeepsItsState. -/
theorem witness_idle : State.reset.pending = [] := rfl

/-- EncWritesTheFrameOrReportsOversize and EncPutsEachFieldAtItsOffset: canonical lists, on both sides of the
length test. -/
theorem witness_enc : (loaded [0x01]).txbuf.wf = true ∧
    ({ State.reset with plen := 1024, txbuf := written blink } : State).txbuf.wf = true ∧
    ({ State.reset with plen := 1024 } : State).plen.toNat ≤ 1024 ∧
    1024 < ({ State.reset with plen := 1025 } : State).plen.toNat := by decide

/-- EncodedFrameIsAFrameOfTheProtocol. -/
theorem witness_frame : frameEncode 0x11 [0x01, 0xF4] = .frame blink := by decide +kernel

/-- FrameEncodeFailsExactlyAbove1024, both sides of the boundary. -/
theorem witness_lengths : (List.replicate 1024 (0 : Byte)).length ≤ 1024 ∧ 1024 < (List.replicate 1025 (0 : Byte)).length := by
  rw [List.length_replicate, List.length_replicate]
  decide

/-- EncAgainGivesTheSameResult. -/
theorem witness_enc_again : (loaded [0x01, 0xF4]).txbuf.wf = true ∧ ∃ t, exec (.enc 0x11) (loaded [0x01, 0xF4]) = .next t :=
  ⟨by decide, _, execEnc_fits (c := 0x11) (s := loaded [0x01, 0xF4]) (by decide)⟩

/-- EncDependsOnItsOperandsOnly: two states that differ in `CRC`, `TXBUF` and a byte of `PBUF` beyond `PLEN`. -/
theorem witness_enc_depends :
    let s := loaded [0x01, 0xF4]
    let s' := { s with crc := 0x1234, txbuf := written blink, pbuf := written [0x01, 0xF4, 0x55] }
    s.txbuf.wf = true ∧ s'.txbuf.wf = true ∧ s.plen = s'.plen ∧
      (∀ i, i < s.plen.toNat → s.memRead .pbuf i = s'.memRead .pbuf i) ∧ s ≠ s' := by decide

/-- DecOutcomeIsFrameDecode, at the capacity. -/
theorem witness_dec_outcome : ({ received blink with rxlen := 1030 } : State).rxlen.toNat ≤ 1030 := by decide

/-- DecAcceptsExactlyBuffersThatBeginWithAFrame: a buffer that does, with surplus bytes. -/
theorem witness_dec_accepts : (received (blink ++ [0x55])).rxlen.toNat ≤ 1030 ∧
    ∃ k, k ≤ (received (blink ++ [0x55])).rxlen.toNat ∧
      wellFormedFrame ((received (blink ++ [0x55])).bytes .rxbuf 0 k) = true :=
  ⟨by decide +kernel, 8, by decide +kernel, by decide +kernel⟩

/-- DecDependsOnTheCandidateBufferOnly: two states that differ in `CRC` and in a byte at `RXLEN`. -/
theorem witness_dec_depends :
    let s := received blink
    let s' := { s with crc := 0xFFFF, rxbuf := written (blink ++ [0x55]) }
    s.rxlen = s'.rxlen ∧ (∀ i, i < s.rxlen.toNat → i < 1030 → s.memRead .rxbuf i = s'.memRead .rxbuf i) ∧ s ≠ s' := by
  decide +kernel

/-- DecAgainChangesNothing. -/
theorem witness_dec_again : ∃ t, exec .dec (received blink) = .next t ∧ (t.status == 0) = true :=
  next_of_nextHas (by decide +kernel)

/-- EveryShorterPrefixOfAFrameIsRejected, on both sides of 6. -/
theorem witness_prefix : frameEncode 0x11 [0x01, 0xF4] = .frame blink ∧ 5 < blink.length ∧ 6 < blink.length := by decide +kernel +kernel

/-- ChangedByteIsRejectedUnlessTheLengthFalls: the marker, a longer declared length, the command, the last checksum byte,
a shorter declared length. -/
theorem witness_corrupted : frameEncode 0x11 [0x01, 0xF4] = .frame blink ∧ 0 < blink.length ∧ 7 < blink.length ∧
    (0x55 : Byte) ≠ byteAt blink 0 ∧ (0x03 : Byte) ≠ byteAt blink 3 ∧ 2 < declaredLength (blink.set 3 0x03) ∧
    (0x10 : Byte) ≠ byteAt blink 1 ∧ (0xCC : Byte) ≠ byteAt blink 7 ∧ (0x00 : Byte) ≠ byteAt blink 3 ∧
    declaredLength (blink.set 3 0x00) < 2 := by decide +kernel

/-- FrameDecodeInvertsFrameEncode. -/
theorem witness_payload : ([] : List Byte).length ≤ 1024 := by decide

/-- EncLoopbackDecReturnsThePayload. -/
theorem witness_loopback : (loaded [0x01, 0xF4]).memWf = true ∧
    ∃ t, exec (.enc 0x11) (loaded [0x01, 0xF4]) = .next t ∧ t.status = 0 :=
  ⟨by decide, _, execEnc_fits (c := 0x11) (s := loaded [0x01, 0xF4]) (by decide), rfl⟩

/-- HostWritesOfLengthsStoreTheValue, both clauses, at the largest value. -/
theorem witness_wr_lengths : (facing (.move (.wrPlen 0xFFFF))).pending = [.move (.wrPlen 0xFFFF)] ∧
    (facing (.move (.wrRxlen 0xFFFF))).pending = [.move (.wrRxlen 0xFFFF)] := by decide

/-- HostWritesOfBufferBytesChangeThatByte, both clauses, at the last index. -/
theorem witness_wr_bytes : (facing (.move (.wrPbuf 1023 0x5A))).memWf = true ∧
    (facing (.move (.wrPbuf 1023 0x5A))).pending = [.move (.wrPbuf 1023 0x5A)] ∧
    (facing (.move (.wrRxbuf 1029 0x5A))).memWf = true ∧
    (facing (.move (.wrRxbuf 1029 0x5A))).pending = [.move (.wrRxbuf 1029 0x5A)] := by decide

/-- HostReadsReturnTheValueAndChangeNothing: every register and the last index of every buffer. -/
theorem witness_reads :
    ([.rdReg .crc, .rdReg .plen, .rdReg .txlen, .rdReg .rxlen, .rdReg .rcmd, .rdReg .rlen, .rdReg .status,
      .rdPbuf 1023, .rdTxbuf 1029, .rdRxbuf 1029] : List Move).all
      (fun m => (facing (.move m)).pending == [.move m]) = true := by decide

/-- EachStateItemHasOnlyItsWriters: a step that changes each item, in the order of the clauses. -/
theorem witness_writers :
    nextHas (step (facing (.move (.issue 0x2031)))) (fun t => t.crc != 0xFFFF) = true ∧
    nextHas (step (facing (.move (.wrPlen 3)))) (fun t => t.plen != 0) = true ∧
    nextHas (step (facing (.move (.wrRxlen 3)))) (fun t => t.rxlen != 0) = true ∧
    nextHas (step (facing (.move (.issue 0x3001)))) (fun t => t.txlen != 0) = true ∧
    nextHas (step { received blink with pending := [.move (.issue 0x4000)] }) (fun t => t.rcmd != 0) = true ∧
    nextHas (step (facing (.move (.issue 0x0000)))) (fun t => t.status != 0) = true ∧
    nextHas (step { loaded [0x01] with pending := [.move (.wrPbuf 0 0x02)] }) (fun t => t.memRead .pbuf 0 != 0x01) = true ∧
    nextHas (step { received blink with pending := [.move (.wrRxbuf 0 0x02)] })
      (fun t => t.memRead .rxbuf 0 != 0xAA) = true ∧
    nextHas (step { State.reset with txbuf := [(0, 0x55)], pending := [.move (.issue 0x3001)] })
      (fun t => t.memRead .txbuf 0 != 0x55) = true := by decide +kernel

/-- ResetLeavesTheStatedRegisterValues: a reset from a state with results in it. -/
theorem witness_reset : ({ received blink with pending := [.reset] } : State).pending = [.reset] := rfl

/-- OperationsStraightAfterReset, both kinds of reset state. -/
theorem witness_after_reset : State.reset = State.reset ∧ ∃ s : State, (received blink).resetEvent = s.resetEvent :=
  ⟨rfl, received blink, rfl⟩

/-- The state after the encoder has offered the frame of S-2 and a decode has been rejected as truncated. -/
def busy : State :=
  { loaded [0x01, 0xF4] with
    txbuf := written blink, txlen := 8, rxbuf := written (blink.take 7), rxlen := 7, status := 4, crc := 0x4DCD,
    pending := [.move (.issue 0x4000)] }

/-- EveryStepKeepsTheLegalRegisters: a legal state with a frame offered and a reject standing; and a step from it. -/
theorem witness_legal : busy.Legal ∧ ∃ t, step busy = .next t :=
  ⟨⟨by decide, by decide, by decide, by decide⟩, _, rfl⟩

/-- EveryStepKeepsTheOfferedFrame and EveryStepKeepsTheBuffersCanonical, with a frame really offered. -/
theorem witness_offered : busy.memWf = true ∧ busy.txFrame ∧ ∃ t, step busy = .next t :=
  ⟨by decide +kernel, .inr (by decide +kernel), _, rfl⟩

/-- EveryStepKeepsOversizeWithoutFrame, with the oversize report standing. -/
theorem witness_oversize : ({ State.reset with status := 1, plen := 1025 } : State).oversizeCleared ∧
    ∃ t, step ({ State.reset with status := 1, plen := 1025 } : State) = .next t :=
  ⟨by decide, _, rfl⟩

/-- AppendedValuesAreReadBack: an append of each kind that just fits. -/
theorem witness_appends : (addU8 ⟨1, []⟩ 0xFF).2 = true ∧ (addF32 ⟨4, []⟩ 0x3F800000).2 = true ∧
    (addBytes ⟨2, []⟩ [0x01, 0xF4]).2 = true ∧ (addU16 ⟨2, []⟩ 0x01F4).2 = true ∧ (addI16 ⟨3, [0x55]⟩ 0xFFD6).2 = true ∧
    (addI32 ⟨4, []⟩ 0x80000000).2 = true ∧ (addI32 ⟨3, []⟩ 0x80000000).2 = false := by decide

/-- StringsAreRejectedAbove255OrReadBack, both clauses: an encoding of 258 bytes, and one that is appended. -/
theorem witness_strings : 255 < (utf8 (List.replicate 86 (Char.ofNat 0x20AC))).length ∧
    (addString (newBuilder) ['H', 'i']).2 = true := by decide +kernel

/-- OnlyInvalidSequencesAreReplaced: a stretch of two bytes, a cut-off three-byte form, before a valid character. -/
theorem witness_invalid_stretch : ([0xE2, 0x82] : List Byte) ≠ [] ∧
    ∀ j, j < ([0xE2, 0x82] : List Byte).length → utf8Head (([0xE2, 0x82] ++ utf8 ['i'] : List Byte).drop j) = none := by
  decide

/-- ErrorFrameCarriesTheCodeInItsPayload, at the largest payload. -/
theorem witness_error_frame : (List.replicate 1023 (0 : Byte)).length + 1 + ([] : List Byte).length ≤ 1024 := by
  rw [List.length_replicate]
  decide

end Sys2Proof.Tests
end

section
/-! Reset: the register values of the reset state (10_state.md R40) and the step that takes the reset input
(70_reset_and_hazards.md R250). -/

namespace Sys2Proof.Machine

/-! ### The registers of the reset state -/

@[simp] theorem State.reset_crc : State.reset.crc = 0xFFFF := rfl
@[simp] theorem State.reset_plen : State.reset.plen = 0 := rfl
@[simp] theorem State.reset_txlen : State.reset.txlen = 0 := rfl
@[simp] theorem State.reset_rxlen : State.reset.rxlen = 0 := rfl
@[simp] theorem State.reset_rcmd : State.reset.rcmd = 0 := rfl
@[simp] theorem State.reset_rlen : State.reset.rlen = 0 := rfl
@[simp] theorem State.reset_status : State.reset.status = 0 := rfl

/-! ### The reset input -/

/-- The reset input is taken in one step that always completes, whatever the state. -/
theorem step_reset {s : State} {es : List Event} (h : s.pending = .reset :: es) :
    step s = .next (s.setPending es).resetEvent :=
  stepEvent_cons h

/-- Settles O39: the step that takes the reset input ends in `resetEvent`, whose registers are those of
`State.reset`; so the one table of R40 answers for both states. -/
theorem resetLeavesTheStatedRegisterValues : Obligations.ResetLeavesTheStatedRegisterValues := by
  intro s es hreset
  refine ⟨(s.setPending es).resetEvent, step_reset hreset, ?_⟩
  rintro z (rfl | rfl)
  · simp
  · simp

end Sys2Proof.Machine
end

section
/-! Operation words: the fields of a word as numbers, and decoding stated by the fields (30_encoding.md R90 to R94). -/

namespace Sys2Proof

/-! ### The fields of a word -/

@[simp] theorem imm8_toNat (w : Word) : (imm8 w).toNat = w.toNat % 256 := by
  simp [imm8, BitVec.extractLsb'_toNat]

/-- A word's fields are the digits of its number: `opc` and `zero` of weight 4096 and 256, and `imm8` below them. -/
theorem fieldsOfWord_eq_iff (w : Word) (opc zero : BitVec 4) (b : Byte) :
    fieldsOfWord w = ⟨opc, zero, b⟩ ↔
      w.toNat / 4096 = opc.toNat ∧ w.toNat / 256 % 16 = zero.toNat ∧ w.toNat % 256 = b.toNat := by
  have hw : w.toNat / 4096 < 16 := by omega
  simp [fieldsOfWord, ← BitVec.toNat_inj, BitVec.extractLsb'_toNat, Nat.shiftRight_eq_div_pow, Nat.mod_eq_of_lt hw]

/-! ### The two masks of the operation map -/

theorem and_0xFFFF (w : Word) : w &&& 0xFFFF = w :=
  BitVec.and_allOnes

theorem and_0xFF00_toNat (w : Word) : (w &&& 0xFF00).toNat = w.toNat / 256 * 256 := by
  have hw : w.toNat / 256 < 2 ^ 8 := by omega
  calc (w &&& 0xFF00).toNat
    _ = w.toNat &&& (2 ^ 8 - 1) <<< 8 := BitVec.toNat_and ..
    _ = (w.toNat >>> 8 &&& (2 ^ 8 - 1)) <<< 8 := by
      apply Nat.eq_of_testBit_eq
      intro i
      rw [Nat.testBit_and, Nat.testBit_shiftLeft, Nat.testBit_shiftLeft, Nat.testBit_and, Nat.testBit_shiftRight]
      by_cases hi : 8 ≤ i <;> simp [hi]
    _ = w.toNat / 256 * 256 := by
      rw [Nat.and_two_pow_sub_one_eq_mod, Nat.shiftRight_eq_div_pow, Nat.shiftLeft_eq, Nat.mod_eq_of_lt hw]

/-! ### The fields that select each row -/

theorem fieldsOfWord_eq_crcInit_iff (w : Word) : fieldsOfWord w = Instr.crcInit.fields ↔ w = 0x1000 := by
  rw [Instr.fields, fieldsOfWord_eq_iff]
  bv_omega

theorem fieldsOfWord_eq_dec_iff (w : Word) : fieldsOfWord w = Instr.dec.fields ↔ w = 0x4000 := by
  rw [Instr.fields, fieldsOfWord_eq_iff]
  bv_omega

/-- The rows that leave the immediate free: the mask keeps `opc` and `zero`. -/
theorem fieldsOfWord_eq_iff_and_0xFF00 (w : Word) (opc : BitVec 4) (b : Byte) :
    fieldsOfWord w = ⟨opc, 0, b⟩ ↔ w &&& 0xFF00 = opc ++ (0 : BitVec 12) ∧ imm8 w = b := by
  have hopc : (opc ++ (0 : BitVec 12)).toNat = opc.toNat * 4096 := by
    rw [BitVec.toNat_append, Nat.shiftLeft_eq]
    exact Nat.or_zero _
  rw [fieldsOfWord_eq_iff, ← BitVec.toNat_inj, ← BitVec.toNat_inj, and_0xFF00_toNat, hopc, imm8_toNat]
  bv_omega

theorem fieldsOfWord_eq_crcByte_iff (w : Word) (b : Byte) :
    fieldsOfWord w = (Instr.crcByte b).fields ↔ w &&& 0xFF00 = 0x2000 ∧ imm8 w = b :=
  fieldsOfWord_eq_iff_and_0xFF00 w 2 b

theorem fieldsOfWord_eq_enc_iff (w : Word) (c : Byte) :
    fieldsOfWord w = (Instr.enc c).fields ↔ w &&& 0xFF00 = 0x3000 ∧ imm8 w = c :=
  fieldsOfWord_eq_iff_and_0xFF00 w 3 c

/-! ### Decoding by the fields -/

/-- A word selects an operation exactly when its fields are those of the operation (R91, R94). -/
theorem decodeOp_eq_legal_iff (w : Word) (i : Instr) : decodeOp w = .legal i ↔ fieldsOfWord w = i.fields := by
  unfold decodeOp
  rw [and_0xFFFF]
  constructor
  · intro h
    split_ifs at h with h1 h2 h3 h4
    · cases h; exact (fieldsOfWord_eq_crcInit_iff w).mpr h1
    · cases h; exact (fieldsOfWord_eq_crcByte_iff w _).mpr ⟨h2, rfl⟩
    · cases h; exact (fieldsOfWord_eq_enc_iff w _).mpr ⟨h3, rfl⟩
    · cases h; exact (fieldsOfWord_eq_dec_iff w).mpr h4
  · intro h
    cases i with
    | crcInit => rw [(fieldsOfWord_eq_crcInit_iff w).mp h, if_pos rfl]
    | crcByte b =>
      obtain ⟨hrow, himm⟩ := (fieldsOfWord_eq_crcByte_iff w b).mp h
      have hinit : w ≠ 0x1000 := by rintro rfl; exact absurd hrow (by decide)
      rw [if_neg hinit, if_pos hrow, himm]
    | enc c =>
      obtain ⟨hrow, himm⟩ := (fieldsOfWord_eq_enc_iff w c).mp h
      have hinit : w ≠ 0x1000 := by rintro rfl; exact absurd hrow (by decide)
      rw [if_neg hinit, hrow, if_neg (by decide), if_pos rfl, himm]
    | dec => rw [(fieldsOfWord_eq_dec_iff w).mp h]; rfl

/-- Settles O12: decoding goes by the fields, and the fields are the digits of the word's number; the fields of
`CRC.INIT` and `DEC` leave only one word each (R93). -/
theorem wordsThatSelectEachOperation : Obligations.WordsThatSelectEachOperation := by
  intro w
  simp only [decodeOp_eq_legal_iff]
  exact ⟨fieldsOfWord_eq_crcInit_iff w, fieldsOfWord_eq_dec_iff w, fun b => fieldsOfWord_eq_iff w 2 0 b,
    fun c => fieldsOfWord_eq_iff w 3 0 c⟩

end Sys2Proof
end

section
/-! The checksum: the round as arithmetic, the fold over a byte sequence, and that no step of it loses information
(40_crc.md R111 to R115, R120). -/

namespace Sys2Proof.Machine

/-! ### One round -/

/-- The bit that `crc_round` tests says whether the number reaches `2^15`. -/
theorem getLsbD_15_iff (r : Word) : r.getLsbD 15 = true ↔ 2 ^ 15 ≤ r.toNat := by
  show r.msb = true ↔ _
  simp [BitVec.msb_eq_decide]

theorem crcRound_of_le {r : Word} (h : 2 ^ 15 ≤ r.toNat) : crcRound r = (r <<< 1) ^^^ Config.poly :=
  if_pos ((getLsbD_15_iff r).mpr h)

theorem crcRound_of_lt {r : Word} (h : r.toNat < 2 ^ 15) : crcRound r = r <<< 1 :=
  if_neg (mt (getLsbD_15_iff r).mp (by omega))

theorem crcRound_toNat (r : Word) : (crcRound r).toNat =
    if 2 ^ 15 ≤ r.toNat then ((r.toNat <<< 1) ^^^ 0x1021) % 2 ^ 16 else (r.toNat <<< 1) % 2 ^ 16 := by
  split_ifs with h
  · rw [crcRound_of_le h, BitVec.toNat_xor, BitVec.toNat_shiftLeft, Nat.xor_mod_two_pow]
    rfl
  · rw [crcRound_of_lt (by omega), BitVec.toNat_shiftLeft]

/-- Settles O3: the bit tested is the comparison with `2^15`, and keeping 16 bits is the mask. -/
theorem crcRoundIsShiftXorAndMask : Obligations.CrcRoundIsShiftXorAndMask :=
  crcRound_toNat

/-- The bit shifted out is not lost: the polynomial is odd, so it becomes the parity of the result. -/
theorem crcRound_getLsbD_zero (r : Word) : (crcRound r).getLsbD 0 = r.getLsbD 15 := by
  cases h : r.getLsbD 15
  · rw [crcRound, h]
    simp
  · rw [crcRound, h]
    simp

theorem crcRound_injective : Function.Injective crcRound := by
  intro a b h
  have htop : a.getLsbD 15 = b.getLsbD 15 := by rw [← crcRound_getLsbD_zero, h, crcRound_getLsbD_zero]
  have hshift : a <<< 1 = b <<< 1 := by
    unfold crcRound at h
    rw [htop] at h
    split_ifs at h
    · exact (BitVec.xor_left_inj _).mp h
    · exact h
  rw [Bool.eq_iff_iff, getLsbD_15_iff, getLsbD_15_iff] at htop
  bv_omega

/-! ### Rounds and bytes -/

theorem crcRounds_eq_iterate (k : Nat) : crcRounds k = crcRound^[k] := by
  induction k with
  | zero => rfl
  | succ k ih => funext r; rw [crcRounds_succ, Function.iterate_succ_apply, ih]

theorem crcRounds_injective (k : Nat) : Function.Injective (crcRounds k) := by
  rw [crcRounds_eq_iterate]
  exact crcRound_injective.iterate k

theorem crcByte_eq_iterate (r : Word) (b : Byte) : crcByte r b = crcRound^[8] (r ^^^ (b.setWidth 16 <<< 8)) := by
  rw [crcByte, crcRounds_eq_iterate]

/-- For a fixed byte, the step of one byte keeps register values apart (R120 (a)). -/
theorem crcByte_injective_register (b : Byte) : Function.Injective fun r : Word => crcByte r b := by
  intro r r' h
  exact (BitVec.xor_left_inj _).mp (crcRounds_injective 8 h)

/-- For a fixed register value, the step of one byte keeps bytes apart. -/
theorem crcByte_injective_byte (r : Word) : Function.Injective (crcByte r) := by
  intro b b' h
  have hhigh : b.setWidth 16 <<< 8 = b'.setWidth 16 <<< 8 := (BitVec.xor_right_inj _).mp (crcRounds_injective 8 h)
  bv_omega

/-! ### Byte sequences -/

theorem crcFold_append (r : Word) (s t : List Byte) : crcFold r (s ++ t) = crcFold (crcFold r s) t :=
  List.foldl_append

/-- The next running value: one byte more is one step of `crc_byte` more. -/
theorem crc16_append_singleton (s : List Byte) (b : Byte) : crc16 (s ++ [b]) = crcByte (crc16 s) b :=
  crcFold_append ..

/-- Settles O4: the running value at index `i` is the checksum of the first `i` bytes. -/
theorem checksumIsTheRunningValueAfterTheLastByte : Obligations.ChecksumIsTheRunningValueAfterTheLastByte := by
  intro s
  refine ⟨fun i => crc16 (s.take i), rfl, ?_, ?_⟩
  · intro i b hb
    show crc16 (s.take (i + 1)) = crcByte (crc16 (s.take i)) b
    rw [List.take_add_one, hb, Option.toList_some, crc16_append_singleton]
  · show crc16 s = crc16 (s.take s.length)
    rw [List.take_length]

theorem crcFold_injective (s : List Byte) : Function.Injective fun r => crcFold r s := by
  induction s with
  | nil => exact Function.injective_id
  | cons b s ih => exact ih.comp (crcByte_injective_register b)

/-- Sequences that differ in one byte only have different checksums (R120 (c)). -/
theorem crc16_injective_byte (before after : List Byte) :
    Function.Injective fun b => crc16 (before ++ b :: after) := by
  intro b b' h
  simp only [crc16, crcFold_append, crcFold_cons] at h
  exact crcByte_injective_byte _ (crcFold_injective after h)

/-! ### The operations of the checksum unit -/

theorem onlyCrc_setCrc (s : State) (v : Word) : Claim.OnlyCrc s (s.setCrc v) :=
  ⟨rfl, rfl, rfl, rfl, rfl, rfl, State.setCrc_memRead s v, rfl, rfl, rfl⟩

theorem exec_crcInit (s : State) : exec .crcInit s = .next (s.setCrc 0xFFFF) := rfl

theorem exec_crcByte (b : Byte) (s : State) : exec (.crcByte b) s = .next (s.setCrc (crcByte s.crc b)) := rfl

/-- Settles O1: `CRC.INIT` is the one register write `setCrc 0xFFFF`. -/
theorem crcInitSetsCrcAndNothingElse : Obligations.CrcInitSetsCrcAndNothingElse := by
  intro s
  refine ⟨s.setCrc 0xFFFF, exec_crcInit s, rfl, onlyCrc_setCrc s _, ?_⟩
  intro hcrc
  rw [← hcrc]
  rfl

/-- Settles O2: `CRC.BYTE` is the one register write `setCrc`, of eight iterated rounds. -/
theorem crcByteFoldsOneByteIntoCrc : Obligations.CrcByteFoldsOneByteIntoCrc := by
  intro b s
  exact ⟨s.setCrc (crcByte s.crc b), exec_crcByte b s, crcByte_eq_iterate s.crc b, onlyCrc_setCrc s _⟩

end Sys2Proof.Machine
end

section
/-! The frame as a byte sequence: what `frame_encode` builds and each check of `frame_decode` answers (41_encode.md
R131, 42_decode.md R141), and what one changed byte does to a well-formed frame (42_decode.md R149). -/

namespace Sys2Proof.Machine

/-! ### Byte sequences with one byte replaced (00_scope.md R13) -/

theorem byteAt_set_self {s : List Byte} {i : Nat} (b : Byte) (hi : i < s.length) : byteAt (s.set i b) i = b := by
  simp [byteAt, hi]

theorem byteAt_set_of_ne (s : List Byte) {i j : Nat} (b : Byte) (h : j ≠ i) : byteAt (s.set i b) j = byteAt s j := by
  simp only [byteAt, List.getD_eq_getElem?_getD, List.getElem?_set_ne h.symm]

theorem byteAt_eq_getElem {s : List Byte} {i : Nat} (hi : i < s.length) : byteAt s i = s[i] :=
  List.getD_eq_getElem s 0 hi

theorem slice_length (s : List Byte) (a e : Nat) : (slice s a e).length = min (e - a) (s.length - a) := by
  simp [slice]

theorem byteAt_slice (s : List Byte) {a e j : Nat} (h : a + j < e) : byteAt (slice s a e) j = byteAt s (a + j) := by
  simp only [byteAt, slice, List.getD_eq_getElem?_getD, List.getElem?_take, List.getElem?_drop,
    if_pos (show j < e - a by omega)]

/-- A part beside the replaced byte is as before. -/
theorem slice_set_outside (s : List Byte) {a e i : Nat} (b : Byte) (h : i < a ∨ e ≤ i) :
    slice (s.set i b) a e = slice s a e := by
  simp only [slice, List.drop_set]
  split_ifs with hia
  · rfl
  · rw [List.take_set, List.set_eq_of_length_le (by simp; omega)]

/-- A part around the replaced byte has that byte replaced. -/
theorem slice_set_inside (s : List Byte) {a e i : Nat} (b : Byte) (h : a ≤ i) :
    slice (s.set i b) a e = (slice s a e).set (i - a) b := by
  simp only [slice, List.drop_set, if_neg (show ¬ i < a by omega), List.take_set]

/-- A byte sequence with one changed byte has another checksum (40_crc.md R120 (c)). -/
theorem crc16_set_ne {s : List Byte} {i : Nat} {b : Byte} (hi : i < s.length) (hb : b ≠ byteAt s i) :
    crc16 (s.set i b) ≠ crc16 s := by
  intro h
  have hset : ∀ x, s.set i x = s.take i ++ x :: s.drop (i + 1) := by
    intro x
    rw [List.set_eq_take_append_cons_drop, if_pos hi]
  rw [← List.set_getElem_self hi, List.set_set, hset, hset] at h
  rw [byteAt_eq_getElem hi] at hb
  exact hb (crc16_injective_byte _ _ h)

/-- Two byte pairs that join to the same value are the same pair. -/
theorem join_inj {a b a' b' : Byte} : join a b = join a' b' ↔ a = a' ∧ b = b' := by
  constructor
  · intro h
    exact ⟨by rw [← hi8_join a b, h, hi8_join], by rw [← lo8_join a b, h, lo8_join]⟩
  · rintro ⟨rfl, rfl⟩
    rfl

/-! ### The two checksums of a frame -/

/-- The checksum recomputed over the body `f[1 .. 4 + N)` (R141). -/
def frameComputed (f : List Byte) : Word :=
  crc16 (slice f 1 (4 + declaredLength f))

/-- The checksum received at offsets `4 + N` and `5 + N` (R141). -/
def frameReceived (f : List Byte) : Word :=
  join (byteAt f (4 + declaredLength f)) (byteAt f (5 + declaredLength f))

/-- The clauses of R86; a length of `6 + N` is at least 6. -/
theorem wellFormedFrame_iff (f : List Byte) : wellFormedFrame f = true ↔
    byteAt f 0 = Config.start ∧ f.length = 6 + declaredLength f ∧ frameReceived f = frameComputed f := by
  simp only [wellFormedFrame, Bool.and_eq_true, decide_eq_true_eq, beq_iff_eq]
  constructor
  · rintro ⟨⟨⟨-, hmark⟩, hlen⟩, hcrc⟩
    exact ⟨hmark, hlen, hcrc⟩
  · rintro ⟨hmark, hlen, hcrc⟩
    have hmin : 6 ≤ f.length := by omega
    exact ⟨⟨⟨hmin, hmark⟩, hlen⟩, hcrc⟩

/-! ### The checks of `frame_decode` -/

theorem frameDecode_short {f : List Byte} (h : f.length < 6) : frameDecode f = .reject .short :=
  if_pos h

theorem frameDecode_marker {f : List Byte} (hlen : 6 ≤ f.length) (h : byteAt f 0 ≠ Config.start) :
    frameDecode f = .reject .marker := by
  rw [frameDecode, if_neg (Nat.not_lt.mpr hlen), if_pos h]

theorem frameDecode_trunc {f : List Byte} (hlen : 6 ≤ f.length) (hmark : byteAt f 0 = Config.start)
    (h : f.length < 6 + declaredLength f) : frameDecode f = .reject .trunc := by
  rw [frameDecode, if_neg (Nat.not_lt.mpr hlen), if_neg (not_not_intro hmark), if_pos h]

/-- With the marker and a declared length that fits, the checksums decide (R141). -/
theorem frameDecode_complete {f : List Byte} (hmark : byteAt f 0 = Config.start)
    (hfits : 6 + declaredLength f ≤ f.length) :
    frameDecode f =
      if frameComputed f ≠ frameReceived f then .reject .crc
      else .accept (byteAt f 1) (slice f 4 (4 + declaredLength f)) := by
  have hlen : 6 ≤ f.length := by omega
  rw [frameDecode, if_neg (Nat.not_lt.mpr hlen), if_neg (not_not_intro hmark), if_neg (Nat.not_lt.mpr hfits)]
  rfl

/-! ### What `frame_encode` builds -/

/-- The frame of a command identifier and a payload: marker, body, checksum (R131). -/
def frameOf (c : Byte) (p : List Byte) : List Byte :=
  [Config.start] ++ frameBody c p ++ [hi8 (crc16 (frameBody c p)), lo8 (crc16 (frameBody c p))]

theorem frameEncode_eq_frame_iff (c : Byte) (p f : List Byte) :
    frameEncode c p = .frame f ↔ p.length ≤ 1024 ∧ f = frameOf c p := by
  unfold frameEncode
  split_ifs with h
  · simp [Nat.not_le.mpr h]
  · simp [Nat.not_lt.mp h, frameOf, eq_comm]

@[simp] theorem frameBody_length (c : Byte) (p : List Byte) : (frameBody c p).length = 3 + p.length := by
  rw [frameBody, List.length_append, List.length_cons, List.length_cons, List.length_singleton]

@[simp] theorem frameOf_length (c : Byte) (p : List Byte) : (frameOf c p).length = 6 + p.length := by
  simp only [frameOf, List.length_append, frameBody_length, List.length_cons, List.length_nil]
  omega

@[simp] theorem byteAt_frameOf_marker (c : Byte) (p : List Byte) : byteAt (frameOf c p) 0 = Config.start := rfl

@[simp] theorem byteAt_frameOf_command (c : Byte) (p : List Byte) : byteAt (frameOf c p) 1 = c := rfl

theorem declaredLength_frameOf (c : Byte) {p : List Byte} (hp : p.length ≤ 1024) :
    declaredLength (frameOf c p) = p.length := by
  show (join (hi8 (BitVec.ofNat 16 p.length)) (lo8 (BitVec.ofNat 16 p.length))).toNat = p.length
  rw [join_hi8_lo8, BitVec.toNat_ofNat, Nat.mod_eq_of_lt (by omega)]

/-- The body stands after the marker. -/
theorem slice_frameOf_body (c : Byte) (p : List Byte) : slice (frameOf c p) 1 (4 + p.length) = frameBody c p := by
  have hn : 4 + p.length - 1 = (frameBody c p).length := by rw [frameBody_length]; omega
  rw [slice, hn]
  exact List.take_left

theorem byteAt_frameOf_checksum (c : Byte) (p : List Byte) :
    byteAt (frameOf c p) (4 + p.length) = hi8 (crc16 (frameBody c p)) ∧
      byteAt (frameOf c p) (5 + p.length) = lo8 (crc16 (frameBody c p)) := by
  have hlen : ([Config.start] ++ frameBody c p).length = 4 + p.length := by
    rw [List.length_append, frameBody_length, List.length_singleton]; omega
  constructor
  · rw [byteAt, frameOf, List.getD_append_right _ _ _ _ (by omega), hlen, Nat.sub_self]
    rfl
  · rw [byteAt, frameOf, List.getD_append_right _ _ _ _ (by omega), hlen, Nat.add_sub_add_right]
    rfl

theorem wellFormedFrame_frameOf (c : Byte) {p : List Byte} (hp : p.length ≤ 1024) :
    wellFormedFrame (frameOf c p) = true := by
  obtain ⟨hhi, hlo⟩ := byteAt_frameOf_checksum c p
  have hcrc : frameReceived (frameOf c p) = frameComputed (frameOf c p) := by
    rw [frameReceived, frameComputed, declaredLength_frameOf c hp, slice_frameOf_body, hhi, hlo, join_hi8_lo8]
  have hlen : (frameOf c p).length = 6 + declaredLength (frameOf c p) := by
    rw [frameOf_length, declaredLength_frameOf c hp]
  exact (wellFormedFrame_iff _).mpr ⟨byteAt_frameOf_marker c p, hlen, hcrc⟩

/-! ### One changed byte -/

/-- Only bytes 2 and 3 make up the declared length (R82). -/
theorem declaredLength_set_of_ne (f : List Byte) {i : Nat} (b : Byte) (h2 : i ≠ 2) (h3 : i ≠ 3) :
    declaredLength (f.set i b) = declaredLength f := by
  rw [declaredLength, byteAt_set_of_ne f b h2.symm, byteAt_set_of_ne f b h3.symm, declaredLength]

theorem eq_two_or_three_of_declaredLength_set_ne {f : List Byte} {i : Nat} {b : Byte}
    (h : declaredLength (f.set i b) ≠ declaredLength f) : i = 2 ∨ i = 3 := by
  by_contra hi
  obtain ⟨h2, h3⟩ := not_or.mp hi
  exact h (declaredLength_set_of_ne f b h2 h3)

section
variable {f : List Byte} {i : Nat} {b : Byte}

/-- A changed byte of the body changes the recomputed checksum and leaves the received one. -/
theorem frameComputed_set_ne_of_body (hlen : f.length = 6 + declaredLength f) (hb : b ≠ byteAt f i) (h1 : 1 ≤ i)
    (h2 : i ≠ 2) (h3 : i ≠ 3) (hi : i < 4 + declaredLength f) :
    frameComputed (f.set i b) ≠ frameComputed f ∧ frameReceived (f.set i b) = frameReceived f := by
  simp only [frameComputed, frameReceived, declaredLength_set_of_ne f b h2 h3]
  constructor
  · rw [slice_set_inside f b h1]
    apply crc16_set_ne
    · rw [slice_length]; omega
    · rwa [byteAt_slice f (by omega), Nat.add_sub_cancel' h1]
  · rw [byteAt_set_of_ne f b (by omega), byteAt_set_of_ne f b (by omega)]

/-- A changed byte of the checksum changes the received checksum and leaves the recomputed one. -/
theorem frameReceived_set_ne_of_checksum (hlen : f.length = 6 + declaredLength f) (hb : b ≠ byteAt f i)
    (hi : i < f.length) (hbody : 4 + declaredLength f ≤ i) :
    frameComputed (f.set i b) = frameComputed f ∧ frameReceived (f.set i b) ≠ frameReceived f := by
  simp only [frameComputed, frameReceived, declaredLength_set_of_ne f b (show i ≠ 2 by omega) (show i ≠ 3 by omega)]
  refine ⟨by rw [slice_set_outside f b (.inr hbody)], fun h => hb ?_⟩
  obtain ⟨hhi, hlo⟩ := join_inj.mp h
  obtain rfl | rfl : i = 4 + declaredLength f ∨ i = 5 + declaredLength f := by omega
  · rwa [byteAt_set_self b hi] at hhi
  · rwa [byteAt_set_self b hi] at hlo

theorem frameDecode_set_marker (hf : wellFormedFrame f = true) (hb : b ≠ byteAt f 0) :
    frameDecode (f.set 0 b) = .reject .marker := by
  obtain ⟨hmark, hlen, -⟩ := (wellFormedFrame_iff f).mp hf
  apply frameDecode_marker
  · rw [List.length_set]; omega
  · rwa [byteAt_set_self b (by omega), ← hmark]

theorem frameDecode_set_longer (hf : wellFormedFrame f = true) (h : declaredLength f < declaredLength (f.set i b)) :
    frameDecode (f.set i b) = .reject .trunc := by
  obtain ⟨hmark, hlen, -⟩ := (wellFormedFrame_iff f).mp hf
  have hi : i = 2 ∨ i = 3 := eq_two_or_three_of_declaredLength_set_ne h.ne'
  apply frameDecode_trunc
  · rw [List.length_set]; omega
  · rwa [byteAt_set_of_ne f b (by omega)]
  · rw [List.length_set]; omega

theorem frameDecode_set_sameLength (hf : wellFormedFrame f = true) (hi : i < f.length) (hb : b ≠ byteAt f i)
    (h0 : i ≠ 0) (h2 : i ≠ 2) (h3 : i ≠ 3) : frameDecode (f.set i b) = .reject .crc := by
  obtain ⟨hmark, hlen, hcrc⟩ := (wellFormedFrame_iff f).mp hf
  -- exactly one of the two checksums changes, and they were equal
  have hdiffer : frameComputed (f.set i b) ≠ frameReceived (f.set i b) := by
    by_cases hbody : i < 4 + declaredLength f
    · obtain ⟨hcomp, hrecv⟩ := frameComputed_set_ne_of_body hlen hb (by omega) h2 h3 hbody
      rwa [hrecv, hcrc]
    · obtain ⟨hcomp, hrecv⟩ := frameReceived_set_ne_of_checksum hlen hb hi (by omega)
      rw [hcomp, ← hcrc]
      exact hrecv.symm
  rw [frameDecode_complete, if_pos hdiffer]
  · rwa [byteAt_set_of_ne f b h0.symm]
  · rw [declaredLength_set_of_ne f b h2 h3, List.length_set, hlen]

theorem frameDecode_set_shorter (hf : wellFormedFrame f = true) (h : declaredLength (f.set i b) < declaredLength f) :
    frameDecode (f.set i b) = .reject .crc ∨
      frameDecode (f.set i b) = .accept (byteAt f 1) (slice f 4 (4 + declaredLength (f.set i b))) := by
  obtain ⟨hmark, hlen, -⟩ := (wellFormedFrame_iff f).mp hf
  have hi : i = 2 ∨ i = 3 := eq_two_or_three_of_declaredLength_set_ne h.ne
  have hmark' : byteAt (f.set i b) 0 = Config.start := by rwa [byteAt_set_of_ne f b (by omega)]
  have hfits : 6 + declaredLength (f.set i b) ≤ (f.set i b).length := by rw [List.length_set]; omega
  rw [frameDecode_complete hmark' hfits]
  split_ifs
  · exact .inl rfl
  · right
    rw [byteAt_set_of_ne f b (by omega), slice_set_outside f b (.inl (by omega))]

end

/-- Settles O32: an encoded frame is well formed and declares its payload's length, and each clause is what one changed
byte does to a well-formed frame. -/
theorem changedByteIsRejectedUnlessTheLengthFalls : Obligations.ChangedByteIsRejectedUnlessTheLengthFalls := by
  intro c p f i b henc hi hb
  obtain ⟨hp, rfl⟩ := (frameEncode_eq_frame_iff c p f).mp henc
  have hf : wellFormedFrame (frameOf c p) = true := wellFormedFrame_frameOf c hp
  have hn : declaredLength (frameOf c p) = p.length := declaredLength_frameOf c hp
  rw [← hn]
  refine ⟨?_, frameDecode_set_longer hf, frameDecode_set_sameLength hf hi hb, frameDecode_set_shorter hf⟩
  rintro rfl
  exact frameDecode_set_marker hf hb

end Sys2Proof.Machine
end

section
/-! The encoder: `ENC` as one answer per path, the frame it leaves in `TXBUF` as the byte sequence of `frame_encode`,
and the same `ENC` issued again (41_encode.md R131 and R133, 70_reset_and_hazards.md R264). -/

namespace Sys2Proof.Machine

/-! ### What `ENC` answers -/

/-- The state in which `ENC` ends when the payload fits. -/
def encDone (c : Byte) (s : State) : State :=
  (((encFramed c s).setTxlen (6 + s.plen)).setCrc (encCrc c s)).report .stOk

theorem exec_enc_fits (c : Byte) {s : State} (h : s.plen.toNat ≤ 1024) : exec (.enc c) s = .next (encDone c s) :=
  execEnc_fits h

theorem exec_enc_oversize (c : Byte) {s : State} (h : 1024 < s.plen.toNat) :
    exec (.enc c) s = .next ((s.setTxlen 0).report .stOversize) :=
  execEnc_oversize h

theorem exec_enc_completes (c : Byte) (s : State) : ∃ t, exec (.enc c) s = .next t := by
  obtain h | h := Nat.lt_or_ge 1024 s.plen.toNat
  · exact ⟨_, exec_enc_oversize c h⟩
  · exact ⟨_, exec_enc_fits c h⟩

@[simp] theorem encDone_txlen (c : Byte) (s : State) : (encDone c s).txlen = 6 + s.plen := rfl
@[simp] theorem encDone_crc (c : Byte) (s : State) : (encDone c s).crc = encCrc c s := rfl
@[simp] theorem encDone_status (c : Byte) (s : State) : (encDone c s).status = 0 := rfl

@[simp] theorem encDone_memRead (c : Byte) (s : State) (B : Buf) (i : Nat) :
    (encDone c s).memRead B i = (encFramed c s).memRead B i := by
  simp [encDone]

/-- `ENC` changes `TXBUF`, `TXLEN`, `CRC` and `STATUS` and nothing else. -/
theorem exec_enc_state {c : Byte} {s t : State} (h : exec (.enc c) s = .next t) :
    ∃ txbuf txlen crc status, t = { s with txbuf := txbuf, txlen := txlen, crc := crc, status := status } := by
  obtain ⟨-, rfl⟩ | ⟨-, rfl⟩ := execEnc_cases h
  · exact ⟨_, _, _, _, rfl⟩
  · rw [encFramed_state]
    exact ⟨_, _, _, _, rfl⟩

section
variable {c : Byte} {s t : State} (h : exec (.enc c) s = .next t)
include h

theorem exec_enc_registers : t.plen = s.plen ∧ t.rxlen = s.rxlen ∧ t.rcmd = s.rcmd ∧ t.rlen = s.rlen := by
  obtain ⟨_, _, _, _, rfl⟩ := exec_enc_state h
  exact ⟨rfl, rfl, rfl, rfl⟩

theorem exec_enc_pbufKept : Claim.BufferKept .pbuf s t := by
  obtain ⟨_, _, _, _, rfl⟩ := exec_enc_state h
  exact fun _ => rfl

theorem exec_enc_rxbufKept : Claim.BufferKept .rxbuf s t := by
  obtain ⟨_, _, _, _, rfl⟩ := exec_enc_state h
  exact fun _ => rfl

theorem exec_enc_outsideKept : Claim.OutsideKept s t := by
  obtain ⟨_, _, _, _, rfl⟩ := exec_enc_state h
  exact ⟨rfl, rfl, rfl⟩

end

/-- The canonical form of `TXBUF` survives `ENC`. -/
theorem exec_enc_txbuf_wf {c : Byte} {s t : State} (hwf : s.txbuf.wf = true) (h : exec (.enc c) s = .next t) :
    t.txbuf.wf = true := by
  obtain ⟨-, rfl⟩ | ⟨-, rfl⟩ := execEnc_cases h
  · exact hwf
  · have hloop := encPayload_wf s.plen.toNat 0 _ (encHeaderCrc c s.plen) .txbuf (encHeader_wf c s.plen s .txbuf hwf)
    exact State.memWrite_wf _ .txbuf .txbuf _ _ (State.memWrite_wf _ .txbuf .txbuf _ _ hloop)

/-! ### The frame in `TXBUF` -/

section
variable (c : Byte) {s : State} (hwf : s.txbuf.wf = true)
include hwf

/-- Four header bytes, the payload, two checksum bytes: together the frame of R131. -/
theorem encDone_bytes_frame :
    (encDone c s).bytes .txbuf 0 (6 + s.plen.toNat) = frameOf c (s.bytes .pbuf 0 s.plen.toNat) := by
  have hread := fun j => (encDone_memRead c s .txbuf j).trans (encFramed_txbuf c s j hwf)
  have hheader : (encDone c s).readFrom .txbuf 0 4 = [Config.start, c, hi8 s.plen, lo8 s.plen] := by
    have hbefore : ∀ j < 4, j ≠ 5 + s.plen.toNat ∧ j ≠ 4 + s.plen.toNat := by omega
    simp [State.readFrom, hread, hbefore]
  have hpayload : (encDone c s).readFrom .txbuf 4 s.plen.toNat = s.bytes .pbuf 0 s.plen.toNat := by
    apply State.readFrom_congr
    intro i hi
    rw [hread, if_neg (by omega), if_neg (by omega), if_pos (by omega), Nat.add_sub_cancel_left, Nat.zero_add]
  have hchecksum : (encDone c s).readFrom .txbuf (4 + s.plen.toNat) 2 = [hi8 (encCrc c s), lo8 (encCrc c s)] := by
    have hnext : 4 + s.plen.toNat + 1 = 5 + s.plen.toNat := by omega
    simp [State.readFrom, hread, hnext]
  have hlen : 6 + s.plen.toNat - 0 = 4 + s.plen.toNat + 2 := by omega
  rw [State.bytes, hlen, State.readFrom_add, State.readFrom_add, Nat.zero_add, Nat.zero_add, hheader, hpayload,
    hchecksum, encCrc_eq, frameOf]
  simp [frameBody]

/-- Each byte of `TXBUF`: the frame's below `6 + PLEN`, the old one from there on. -/
theorem encDone_memRead_txbuf (i : Nat) :
    (encDone c s).memRead .txbuf i =
      if i < 6 + s.plen.toNat then byteAt (frameOf c (s.bytes .pbuf 0 s.plen.toNat)) i else s.memRead .txbuf i := by
  split_ifs with hi
  · rw [← encDone_bytes_frame c hwf, State.byteAt_bytes _ _ hi]
  · rw [encDone_memRead, encFramed_txbuf c s i hwf, if_neg (by omega), if_neg (by omega), if_neg (by omega),
      if_neg (by omega), if_neg (by omega), if_neg (by omega), if_neg (by omega)]

/-- The bytes the checksum covers are the frame's body. -/
theorem encDone_bytes_body :
    (encDone c s).bytes .txbuf 1 (4 + s.plen.toNat) = frameBody c (s.bytes .pbuf 0 s.plen.toNat) := by
  have hbody := slice_frameOf_body c (s.bytes .pbuf 0 s.plen.toNat)
  rw [State.bytes_length, Nat.sub_zero, ← encDone_bytes_frame c hwf, State.slice_bytes _ _ (by omega) (by omega)] at hbody
  exact hbody

end

/-- Settles O20: on each side of the length test the answer of `ENC` is known as a state; its `TXBUF` holds the frame
and, from `6 + PLEN` on, the old bytes. -/
theorem encWritesTheFrameOrReportsOversize : Obligations.EncWritesTheFrameOrReportsOversize := by
  intro c s hwf
  obtain ⟨t, h⟩ := exec_enc_completes c s
  obtain ⟨hplen, hrxlen, hrcmd, hrlen⟩ := exec_enc_registers h
  refine ⟨t, h, hplen, hrxlen, hrcmd, hrlen, exec_enc_pbufKept h, exec_enc_rxbufKept h, exec_enc_outsideKept h, ?_⟩
  split_ifs with hn
  · rw [exec_enc_oversize c hn] at h
    cases h
    exact ⟨rfl, rfl, rfl, fun i => by simp⟩
  · have hn : s.plen.toNat ≤ 1024 := Nat.not_lt.mp hn
    rw [exec_enc_fits c hn] at h
    cases h
    have hlen : (encDone c s).txlen.toNat = 6 + s.plen.toNat := encLength_toNat s hn
    refine ⟨rfl, hlen, ?_, ?_, ?_⟩
    · rw [hlen, encDone_bytes_frame c hwf, frameEncode_eq_frame_iff]
      exact ⟨by simpa using hn, rfl⟩
    · rw [encDone_bytes_body c hwf]
      exact encCrc_eq c s
    · intro i hi
      rw [encDone_memRead_txbuf c hwf, if_neg (by omega)]

/-- Settles O24: the second `ENC` reads the `PLEN` and `PBUF` of the first, so it writes the same frame. -/
theorem encAgainGivesTheSameResult : Obligations.EncAgainGivesTheSameResult := by
  intro c s t hwf h
  obtain ⟨hplen, -⟩ := exec_enc_registers h
  obtain hn | hn := Nat.lt_or_ge 1024 s.plen.toNat
  · have hn' : 1024 < t.plen.toNat := by rwa [hplen]
    rw [exec_enc_oversize c hn] at h
    cases h
    exact ⟨_, exec_enc_oversize c hn', fun i => by simp, rfl, rfl, rfl⟩
  · have hn' : t.plen.toNat ≤ 1024 := by rwa [hplen]
    have hwf' : t.txbuf.wf = true := exec_enc_txbuf_wf hwf h
    have hpayload : t.bytes .pbuf 0 s.plen.toNat = s.bytes .pbuf 0 s.plen.toNat :=
      State.bytes_congr fun i _ _ => exec_enc_pbufKept h i
    have ht : encDone c s = t := by
      rw [exec_enc_fits c hn] at h
      exact Host.Outcome.next.inj h
    refine ⟨encDone c t, exec_enc_fits c hn', fun i => ?_, ?_, ?_, ?_⟩
    · rw [encDone_memRead_txbuf c hwf', hplen, hpayload]
      split_ifs with hi
      · rw [← ht, encDone_memRead_txbuf c hwf, if_pos hi]
      · rfl
    · rw [encDone_txlen, hplen, ← ht, encDone_txlen]
    · rw [encDone_crc, encCrc_eq, hplen, hpayload, ← ht, encDone_crc, encCrc_eq]
    · rw [encDone_status, ← ht, encDone_status]

end Sys2Proof.Machine
end

section
/-! The decoder: what `DEC` keeps, the exact conditions of an accept, and the candidate buffer read as a byte sequence
(42_decode.md R143, R144 and R146). -/

namespace Sys2Proof.Machine

/-! ### What `DEC` answers -/

theorem exec_dec_completes (s : State) : ∃ t, exec .dec s = .next t := by
  dsimp only [exec, execDec]
  split_ifs
  all_goals exact ⟨_, rfl⟩

section
variable {s t : State} (h : exec .dec s = .next t)
include h

/-- `DEC` changes `RCMD`, `RLEN`, `CRC` and `STATUS` and nothing else. -/
theorem exec_dec_state :
    ∃ rcmd rlen crc status, t = { s with rcmd := rcmd, rlen := rlen, crc := crc, status := status } := by
  obtain ⟨-, rfl⟩ | ⟨-, rfl⟩ | ⟨-, -, -, rfl⟩ | ⟨-, -, -, -, rfl⟩ | ⟨-, -, -, -, rfl⟩ | ⟨-, -, -, -, rfl⟩ :=
    execDec_cases h
  all_goals exact ⟨_, _, _, _, rfl⟩

theorem exec_dec_lengths : t.rxlen = s.rxlen ∧ t.plen = s.plen ∧ t.txlen = s.txlen := by
  obtain ⟨_, _, _, _, rfl⟩ := exec_dec_state h
  exact ⟨rfl, rfl, rfl⟩

theorem exec_dec_bufferKept (B : Buf) : Claim.BufferKept B s t := by
  obtain ⟨_, _, _, _, rfl⟩ := exec_dec_state h
  cases B
  all_goals exact fun _ => rfl

theorem exec_dec_outsideKept : Claim.OutsideKept s t := by
  obtain ⟨_, _, _, _, rfl⟩ := exec_dec_state h
  exact ⟨rfl, rfl, rfl⟩

/-- `ST_OK` is reported when no check fires, and only then. -/
theorem exec_dec_status_eq_zero_iff :
    t.status = 0 ↔ s.rxlen.toNat ≤ 1030 ∧ s.memRead .rxbuf 0 = 0xAA ∧ 6 + (decDeclared s).toNat ≤ s.rxlen.toNat ∧
      decComputed s = decReceived s := by
  obtain ⟨hlen, rfl⟩ | ⟨hlen, rfl⟩ | ⟨-, -, hmark, rfl⟩ | ⟨-, -, -, hlen, rfl⟩ | ⟨-, -, -, hcrc, rfl⟩ |
    ⟨hcap, hmark, hlen, hcrc, rfl⟩ := execDec_cases h
  · exact iff_of_false (by simp [Code.value]) (by omega)
  · exact iff_of_false (by simp [Code.value]) (by omega)
  · exact iff_of_false (by simp [Code.value]) fun ⟨_, hm, _⟩ => hmark hm
  · exact iff_of_false (by simp [Code.value]) (by omega)
  · exact iff_of_false (by simp [Code.value]) fun ⟨_, _, _, hc⟩ => hcrc hc
  · exact iff_of_true rfl ⟨hcap, hmark, hlen, hcrc⟩

end

theorem decReceived_toNat (s : State) :
    (decReceived s).toNat = (s.memRead .rxbuf (4 + (decDeclared s).toNat)).toNat * 256 +
      (s.memRead .rxbuf (5 + (decDeclared s).toNat)).toNat :=
  join_toNat _ _

/-- Settles O26: the statement's `N`, `r` and `rx` are the model's declared length and its two checksums, and each
answer of `DEC` makes the tests before its own fail. -/
theorem decReportsTheFirstFailingCheckOrAccepts : Obligations.DecReportsTheFirstFailingCheckOrAccepts := by
  intro s
  obtain ⟨t, h⟩ := exec_dec_completes s
  obtain ⟨hrxlen, hplen, htxlen⟩ := exec_dec_lengths h
  refine ⟨t, h, hrxlen, hplen, htxlen, exec_dec_bufferKept h, exec_dec_outsideKept h, ?_⟩
  simp only [← decDeclared_toNat, ← decComputed_eq, ← decReceived_toNat, ne_eq, BitVec.toNat_inj]
  obtain ⟨hcap, rfl⟩ | ⟨hshort, rfl⟩ | ⟨hmin, hcap, hmark, rfl⟩ | ⟨hmin, hcap, hmark, htrunc, rfl⟩ |
    ⟨hcap, hmark, hfits, hcrc, rfl⟩ | ⟨hcap, hmark, hfits, hcrc, rfl⟩ := execDec_cases h
  · rw [if_pos hcap]
    exact ⟨rfl, rfl, rfl, rfl⟩
  · rw [if_neg (by omega), if_pos hshort]
    exact ⟨rfl, rfl, rfl, rfl⟩
  · rw [if_neg (by omega), if_neg (by omega), if_pos hmark]
    exact ⟨rfl, rfl, rfl, rfl⟩
  · rw [if_neg (by omega), if_neg (by omega), if_neg (not_not_intro hmark), if_pos htrunc]
    exact ⟨rfl, rfl, rfl, rfl⟩
  · rw [if_neg (by omega), if_neg (by omega), if_neg (not_not_intro hmark), if_neg (by omega), if_pos hcrc]
    exact ⟨rfl, rfl, rfl, rfl⟩
  · rw [if_neg (by omega), if_neg (by omega), if_neg (not_not_intro hmark), if_neg (by omega),
      if_neg (not_not_intro hcrc)]
    exact ⟨rfl, rfl, rfl, rfl⟩

/-! ### The candidate buffer as a byte sequence -/

section
variable (s : State) {k : Nat}

theorem declaredLength_bytes (hk : 4 ≤ k) : declaredLength (s.bytes .rxbuf 0 k) = (decDeclared s).toNat := by
  rw [declaredLength, State.byteAt_bytes s _ (by omega), State.byteAt_bytes s _ (by omega), decDeclared]

theorem frameComputed_bytes (hk : 6 + (decDeclared s).toNat ≤ k) :
    frameComputed (s.bytes .rxbuf 0 k) = decComputed s := by
  rw [frameComputed, declaredLength_bytes s (by omega), State.slice_bytes s _ (by omega) (by omega), decComputed_eq]

theorem frameReceived_bytes (hk : 6 + (decDeclared s).toNat ≤ k) :
    frameReceived (s.bytes .rxbuf 0 k) = decReceived s := by
  rw [frameReceived, declaredLength_bytes s (by omega), State.byteAt_bytes s _ (by omega),
    State.byteAt_bytes s _ (by omega), decReceived]

/-- The declared length fixes where a well-formed frame at the front of `RXBUF` ends (R146). -/
theorem wellFormedFrame_bytes_iff : wellFormedFrame (s.bytes .rxbuf 0 k) = true ↔
    k = 6 + (decDeclared s).toNat ∧ s.memRead .rxbuf 0 = 0xAA ∧ decComputed s = decReceived s := by
  rw [wellFormedFrame_iff, State.bytes_length, Nat.sub_zero]
  constructor
  · rintro ⟨hmark, hlen, hcrc⟩
    rw [declaredLength_bytes s (by omega)] at hlen
    rw [frameReceived_bytes s hlen.ge, frameComputed_bytes s hlen.ge] at hcrc
    rw [State.byteAt_bytes s _ (by omega)] at hmark
    exact ⟨hlen, hmark, hcrc.symm⟩
  · rintro ⟨hlen, hmark, hcrc⟩
    rw [declaredLength_bytes s (by omega), frameReceived_bytes s hlen.ge, frameComputed_bytes s hlen.ge,
      State.byteAt_bytes s _ (by omega)]
    exact ⟨hmark, hlen, hcrc.symm⟩

end

/-- Settles O28: only the first `6 + N` bytes of `RXBUF` can be a well-formed frame that begins there, and `DEC`
accepts when they are one and lie within `RXLEN`. -/
theorem decAcceptsExactlyBuffersThatBeginWithAFrame : Obligations.DecAcceptsExactlyBuffersThatBeginWithAFrame := by
  intro s
  obtain ⟨t, h⟩ := exec_dec_completes s
  refine ⟨t, h, ?_⟩
  simp only [exec_dec_status_eq_zero_iff h, wellFormedFrame_bytes_iff]
  constructor
  · rintro ⟨hcap, hmark, hlen, hcrc⟩
    exact ⟨hcap, _, hlen, rfl, hmark, hcrc⟩
  · rintro ⟨hcap, _, hlen, rfl, hmark, hcrc⟩
    exact ⟨hcap, hmark, hlen, hcrc⟩

end Sys2Proof.Machine
end

section
/-! The host interface: one rule per host move, on the state from which its event has been taken (43_host_interface.md
R161 to R165 and R172), and what each rule leaves unchanged. -/

namespace Sys2Proof.Machine

/-! ### The step that makes a host move -/

/-- The step makes the pending host move, on the state from which its event has been taken. -/
theorem step_move {s : State} {m : Move} {es : List Event} (h : s.pending = .move m :: es) :
    step s = makeMove m (s.setPending es) :=
  stepEvent_cons h

section
variable {s : State} {w : Word} {es : List Event} (h : s.pending = .move (.issue w) :: es)
include h

theorem step_issue_legal {i : Instr} (hw : decodeOp w = .legal i) : step s = exec i (s.setPending es) := by
  rw [step_move h]
  exact issueWord_legal hw _

theorem step_issue_illegal (hw : decodeOp w = .illegal) : step s = .next ((s.setPending es).report .stIllegal) := by
  rw [step_move h]
  exact issueWord_illegal hw _

end

/-- Every operation completes, whatever the state it starts from. -/
theorem exec_completes (i : Instr) (s : State) : ∃ t, exec i s = .next t := by
  cases i with
  | crcInit => exact ⟨_, exec_crcInit s⟩
  | crcByte b => exact ⟨_, exec_crcByte b s⟩
  | enc c => exact exec_enc_completes c s
  | dec => exact exec_dec_completes s

section
variable {s : State} {es : List Event}

theorem step_wrPlen {v : Word} (h : s.pending = .move (.wrPlen v) :: es) :
    step s = .next ((s.setPending es).setPlen v) :=
  step_move h

theorem step_wrRxlen {v : Word} (h : s.pending = .move (.wrRxlen v) :: es) :
    step s = .next ((s.setPending es).setRxlen v) :=
  step_move h

theorem step_wrPbuf {i : Fin Config.pcap} {b : Byte} (h : s.pending = .move (.wrPbuf i b) :: es) :
    step s = .next ((s.setPending es).memWrite .pbuf i.val b) :=
  step_move h

theorem step_wrRxbuf {i : Fin Config.rxcap} {b : Byte} (h : s.pending = .move (.wrRxbuf i b) :: es) :
    step s = .next ((s.setPending es).memWrite .rxbuf i.val b) :=
  step_move h

theorem step_rdReg {r : Reg} (h : s.pending = .move (.rdReg r) :: es) :
    step s = .next ((s.setPending es).setAnswer (s.readReg r)) := by
  rw [step_move h]
  cases r <;> rfl

theorem step_rdPbuf {i : Fin Config.pcap} (h : s.pending = .move (.rdPbuf i) :: es) :
    step s = .next ((s.setPending es).setAnswer (.byte (s.memRead .pbuf i.val))) :=
  step_move h

theorem step_rdTxbuf {i : Fin Config.txcap} (h : s.pending = .move (.rdTxbuf i) :: es) :
    step s = .next ((s.setPending es).setAnswer (.byte (s.memRead .txbuf i.val))) :=
  step_move h

theorem step_rdRxbuf {i : Fin Config.rxcap} (h : s.pending = .move (.rdRxbuf i) :: es) :
    step s = .next ((s.setPending es).setAnswer (.byte (s.memRead .rxbuf i.val))) :=
  step_move h

end

/-! ### Issued words -/

/-- Settles O15: a legal word runs its operation and every operation completes; an illegal word is a report. -/
theorem stepPerformsTheIssuedOperation : Obligations.StepPerformsTheIssuedOperation := by
  intro s w es h
  refine ⟨fun _ => step_issue_legal h, step_issue_illegal h, ?_⟩
  cases hw : decodeOp w with
  | legal i =>
    rw [step_issue_legal h hw]
    exact exec_completes i _
  | illegal => exact ⟨_, step_issue_illegal h hw⟩

/-- Settles O17: the step on an illegal word is the report of `ST_ILLEGAL`, which writes `STATUS` alone. -/
theorem illegalWordWritesStatusOnly : Obligations.IllegalWordWritesStatusOnly := by
  intro s w es h hw
  refine ⟨_, step_issue_illegal h hw, rfl, ⟨rfl, rfl, rfl, rfl, rfl, rfl, rfl⟩, ?_, rfl, rfl, rfl⟩
  intro B i
  rw [State.report_memRead, State.setPending_memRead]

/-! ### Host writes -/

/-- Settles O35: each of the two moves is the one register write `setPlen` or `setRxlen`. -/
theorem hostWritesOfLengthsStoreTheValue : Obligations.HostWritesOfLengthsStoreTheValue := by
  intro s v es
  constructor
  · intro h
    refine ⟨_, step_wrPlen h, rfl, ⟨rfl, rfl, rfl, rfl, rfl, rfl, rfl⟩, ?_, rfl, rfl, rfl⟩
    intro B i
    rw [State.setPlen_memRead, State.setPending_memRead]
  · intro h
    refine ⟨_, step_wrRxlen h, rfl, ⟨rfl, rfl, rfl, rfl, rfl, rfl, rfl⟩, ?_, rfl, rfl, rfl⟩
    intro B i
    rw [State.setRxlen_memRead, State.setPending_memRead]

section
variable (s : State) (es : List Event) (B : Buf) (i : Nat) (b : Byte)

/-- A read after a host write, in the buffer written. -/
theorem memRead_setPending_memWrite (hwf : s.memWf = true) (j : Nat) :
    ((s.setPending es).memWrite B i b).memRead B j = if j = i then b else s.memRead B j := by
  have hB : ((s.setPending es).buf B).wf = true := by
    rw [State.setPending_buf]
    exact ((State.memWf_iff s).mp hwf B).1
  rw [State.memRead_memWrite _ i j b hB, State.setPending_memRead]

variable {B} in
theorem bufferKept_setPending_memWrite {C : Buf} (h : C ≠ B) :
    Claim.BufferKept C s ((s.setPending es).memWrite B i b) := by
  intro j
  rw [State.memRead_memWrite_otherBuf _ i j b h, State.setPending_memRead]

theorem registersKept_setPending_memWrite : Claim.RegistersKept s ((s.setPending es).memWrite B i b) := by
  simp [Claim.RegistersKept]

theorem eventTaken_setPending_memWrite : Claim.EventTaken es s ((s.setPending es).memWrite B i b) := by
  simp [Claim.EventTaken]

end

/-- Settles O36: both moves are one `memWrite`, in `PBUF` or in `RXBUF`. -/
theorem hostWritesOfBufferBytesChangeThatByte : Obligations.HostWritesOfBufferBytesChangeThatByte := by
  intro s b es hwf
  constructor
  · intro i h
    exact ⟨_, step_wrPbuf h, memRead_setPending_memWrite s es .pbuf i b hwf,
      bufferKept_setPending_memWrite s es i b (by decide), bufferKept_setPending_memWrite s es i b (by decide),
      registersKept_setPending_memWrite s es .pbuf i b, eventTaken_setPending_memWrite s es .pbuf i b⟩
  · intro i h
    exact ⟨_, step_wrRxbuf h, memRead_setPending_memWrite s es .rxbuf i b hwf,
      bufferKept_setPending_memWrite s es i b (by decide), bufferKept_setPending_memWrite s es i b (by decide),
      registersKept_setPending_memWrite s es .rxbuf i b, eventTaken_setPending_memWrite s es .rxbuf i b⟩

/-! ### Host reads -/

/-- Settles O37: every read answers the value and sets the model's `answer` alone; the seven registers share one
rule, each buffer has its own. -/
theorem hostReadsReturnTheValueAndChangeNothing : Obligations.HostReadsReturnTheValueAndChangeNothing := by
  rintro s es m a h (⟨rfl, rfl⟩ | ⟨rfl, rfl⟩ | ⟨rfl, rfl⟩ | ⟨rfl, rfl⟩ | ⟨rfl, rfl⟩ | ⟨rfl, rfl⟩ | ⟨rfl, rfl⟩ |
    ⟨i, rfl, rfl⟩ | ⟨i, rfl, rfl⟩ | ⟨i, rfl, rfl⟩)
  exacts [step_rdReg h, step_rdReg h, step_rdReg h, step_rdReg h, step_rdReg h, step_rdReg h, step_rdReg h,
    step_rdPbuf h, step_rdTxbuf h, step_rdRxbuf h]

end Sys2Proof.Machine
end

section
/-! Operation words: the word of an operation carries the operation's fields, a word is known by its fields, and so
decoding and encoding invert each other (30_encoding.md R91 to R97). -/

namespace Sys2Proof

/-! ### The word of an operation -/

/-- The operation map has a lemma of its own for each operation; this is all four at once. -/
theorem encoding_statement (i : Instr) : Laws.Encoding.Statement i := by
  cases i with
  | crcInit => exact Laws.Encoding.crcInit
  | crcByte b => exact Laws.Encoding.crcByte b
  | enc c => exact Laws.Encoding.enc c
  | dec => exact Laws.Encoding.dec

theorem fieldsOfWord_encode (i : Instr) : fieldsOfWord (encode i) = i.fields := by
  obtain ⟨-, hfields, -⟩ := encoding_statement i
  exact hfields

/-- An immediate is a byte by type, so no operation is ill formed (R92). -/
theorem Instr.wellFormed_eq_true (i : Instr) : i.wellFormed = true := by
  obtain ⟨-, -, hwf⟩ := encoding_statement i
  exact hwf

/-- The fields are the digits of a word's number, so they leave nothing of the word out. -/
theorem fieldsOfWord_injective : Function.Injective fieldsOfWord := by
  intro v w h
  obtain ⟨hopc, hzero, himm⟩ := (fieldsOfWord_eq_iff v _ _ _).mp h
  obtain ⟨hopc', hzero', himm'⟩ := (fieldsOfWord_eq_iff w _ _ _).mp rfl
  bv_omega

theorem decodeOp_encode (i : Instr) : decodeOp (encode i) = .legal i :=
  (decodeOp_eq_legal_iff _ _).mpr (fieldsOfWord_encode i)

theorem encode_of_decodeOp {w : Word} {i : Instr} (h : decodeOp w = .legal i) : encode i = w := by
  apply fieldsOfWord_injective
  rw [fieldsOfWord_encode, (decodeOp_eq_legal_iff w i).mp h]

/-- Settles O11: a word decodes to an operation exactly when it has the operation's fields, the word of an operation has
them, and a word is known by its fields. -/
theorem decodeInvertsEncode : Obligations.DecodeInvertsEncode :=
  ⟨fun i _ => decodeOp_encode i, fun _ i h => ⟨i.wellFormed_eq_true, encode_of_decodeOp h⟩⟩

/-! ### The illegal words -/

/-- The words that select an operation, by their digits (R90, R93, R95). -/
theorem exists_decodeOp_eq_legal_iff (w : Word) : (∃ i, decodeOp w = .legal i) ↔
    (1 ≤ w.toNat / 4096 ∧ w.toNat / 4096 ≤ 4) ∧ w.toNat / 256 % 16 = 0 ∧
      (w.toNat / 4096 = 1 ∨ w.toNat / 4096 = 4 → w.toNat % 256 = 0) := by
  simp only [decodeOp_eq_legal_iff]
  constructor
  · rintro ⟨i, hi⟩
    obtain ⟨hopc, hzero, himm⟩ := (fieldsOfWord_eq_iff w _ _ _).mp hi
    cases i with
    | crcInit => simp [hopc, hzero, himm]
    | crcByte b => simp [hopc, hzero]
    | enc c => simp [hopc, hzero]
    | dec => simp [hopc, hzero, himm]
  · rintro ⟨⟨hmin, hmax⟩, hzero, himm⟩
    obtain hopc | hopc | hopc | hopc :
      w.toNat / 4096 = 1 ∨ w.toNat / 4096 = 2 ∨ w.toNat / 4096 = 3 ∨ w.toNat / 4096 = 4 := by omega
    · exact ⟨.crcInit, (fieldsOfWord_eq_iff w 1 0 0).mpr ⟨hopc, hzero, himm (.inl hopc)⟩⟩
    · exact ⟨.crcByte (imm8 w), (fieldsOfWord_eq_iff w 2 0 _).mpr ⟨hopc, hzero, (imm8_toNat w).symm⟩⟩
    · exact ⟨.enc (imm8 w), (fieldsOfWord_eq_iff w 3 0 _).mpr ⟨hopc, hzero, (imm8_toNat w).symm⟩⟩
    · exact ⟨.dec, (fieldsOfWord_eq_iff w 4 0 0).mpr ⟨hopc, hzero, himm (.inr hopc)⟩⟩

theorem decodeOp_eq_illegal_iff (w : Word) : decodeOp w = .illegal ↔ ¬ ∃ i, decodeOp w = .legal i := by
  cases decodeOp w with
  | legal i => simp
  | illegal => simp

/-- Settles O13: a word is illegal when it selects no operation, and the digits say which words select one. -/
theorem illegalWordsAreExactlyTheRest : Obligations.IllegalWordsAreExactlyTheRest := by
  intro w
  rw [decodeOp_eq_illegal_iff, exists_decodeOp_eq_legal_iff]
  omega

/-- Settles O14: the four legal words are the words of their operations, and the two others carry a digit that R90
forbids. -/
theorem sampleWordsDecodeAsTheMapSays : Obligations.SampleWordsDecodeAsTheMapSays := by
  refine ⟨decodeOp_encode .crcInit, decodeOp_encode (.crcByte 0xFF), decodeOp_encode (.enc 0x11), decodeOp_encode .dec,
    ?_, ?_⟩
  · exact (illegalWordsAreExactlyTheRest _).mpr (.inr (.inr (.inl (by decide))))
  · exact (illegalWordsAreExactlyTheRest _).mpr (.inr (.inr (.inr (by decide))))

end Sys2Proof
end

section
/-! The checksum: one byte as eight input bits, the residue of an appended checksum, the register values a zero byte
keeps, and the checksum that moves through the block compute (40_crc.md R115, R116, R119, R120). -/

namespace Sys2Proof.Machine

/-! ### The bit-serial form (R119) -/

/-- A round of a value into which `w` was exclusive-ored takes in bit 15 of `w` and keeps the other bits, moved up, for
the rounds after it. -/
theorem crcRound_xor_eq_crcBit (r w : Word) : crcRound (r ^^^ w) = crcBit r (w.getLsbD 15) ^^^ w <<< 1 := by
  unfold crcRound crcBit
  rw [BitVec.getLsbD_xor, BitVec.shiftLeft_xor_distrib]
  split_ifs
  · rw [BitVec.xor_assoc, BitVec.xor_assoc, BitVec.xor_comm (w <<< 1)]
  · rfl

/-- The eight rounds take in the eight bits of the byte, bit 7 first, and nothing of it is left. -/
theorem foldl_crcBit_bitsOfByte (r : Word) (b : Byte) : (bitsOfByte b).foldl crcBit r = crcByte r b := by
  simp only [crcByte, crcRounds, crcRound_xor_eq_crcBit, ← BitVec.shiftLeft_add, Nat.reduceAdd, bitsOfByte, List.foldl]
  simp

/-- Settles O5: byte by byte the two forms make the same step, so their folds agree from every register value. -/
theorem bitSerialFormGivesTheSameChecksum : Obligations.BitSerialFormGivesTheSameChecksum := by
  intro s
  rw [crc16Serial, List.foldl_flatMap, crc16, crcFold]
  simp only [foldl_crcBit_bitsOfByte]

/-! ### The halves of the register -/

theorem join_eq_xor (a b : Byte) : join a b = a.setWidth 16 <<< 8 ^^^ b.setWidth 16 := by
  apply BitVec.eq_of_getLsbD_eq
  intro i hi
  rw [join, BitVec.getLsbD_append, BitVec.getLsbD_xor, BitVec.getLsbD_shiftLeft, BitVec.getLsbD_setWidth,
    BitVec.getLsbD_setWidth]
  by_cases h : i < 8
  · simp [h, hi]
  · simp [h, hi, show i - 8 < 16 by omega, BitVec.getLsbD_of_ge b i (by omega)]

theorem join_xor_join (a b a' b' : Byte) : join a b ^^^ join a' b' = join (a ^^^ a') (b ^^^ b') := by
  rw [join, join, join, BitVec.xor_append]

theorem join_zero (b : Byte) : join b 0 = b.setWidth 16 <<< 8 := by
  rw [join_eq_xor]
  exact BitVec.xor_zero

/-- One byte's step: eight rounds on the high half, into which the byte has gone; the low half only moves up. -/
theorem crcByte_join (a b d : Byte) : crcByte (join a b) d = crcByte 0 (a ^^^ d) ^^^ join b 0 := by
  have hin : join a b ^^^ d.setWidth 16 <<< 8 = ((0 : Word) ^^^ (a ^^^ d).setWidth 16 <<< 8) ^^^ b.setWidth 16 := by
    simp [join_eq_xor, BitVec.setWidth_xor, BitVec.shiftLeft_xor_distrib, BitVec.xor_assoc,
      BitVec.xor_comm (b.setWidth 16)]
  rw [crcByte, hin, crcRounds_xor, crcRounds_lowByte, join_zero, crcByte]

/-- A byte equal to the high half of the register empties it: the rounds have nothing to do. -/
theorem crcByte_join_self (a b : Byte) : crcByte (join a b) a = join b 0 := by
  have hzero : crcByte 0 (0#8) = 0#16 := rfl
  rw [crcByte_join, BitVec.xor_self, hzero, BitVec.zero_xor]

/-- Settles O6: the high byte of the checksum empties the high half of the register, its low byte the rest. -/
theorem appendedChecksumLeavesResidueZero : Obligations.AppendedChecksumLeavesResidueZero := by
  intro s
  generalize hc : crc16 s = c
  obtain ⟨a, b, rfl⟩ : ∃ a b, c = join a b := ⟨hi8 c, lo8 c, (join_hi8_lo8 c).symm⟩
  calc crc16 (s ++ [hi8 (join a b), lo8 (join a b)])
    _ = crcByte (crcByte (join a b) a) b := by rw [crc16_eq, crcFold_append, ← crc16_eq, hc, hi8_join, lo8_join]; rfl
    _ = 0 := by rw [crcByte_join_self, crcByte_join_self]; rfl

/-! ### The register values a zero byte keeps (R115) -/

/-- The high halves that a zero byte can keep: its low half must undo what the rounds did to the high one. -/
theorem hi8_of_fixed (a : Byte) (h : hi8 (crcByte 0 a) ^^^ lo8 (crcByte 0 a) = a) : a = 0 ∨ a = 0xF0 := by
  revert a
  decide

/-- Settles O9: a zero byte keeps a register value when the rounds on its high half give both halves back; that leaves
two high halves, and each has one low half. -/
theorem zeroByteKeepsExactlyTwoRegisterValues : Obligations.ZeroByteKeepsExactlyTwoRegisterValues := by
  intro r
  constructor
  · intro h
    obtain ⟨a, b, rfl⟩ : ∃ a b, r = join a b := ⟨hi8 r, lo8 r, (join_hi8_lo8 r).symm⟩
    have hrounds : crcByte 0 a = join (a ^^^ b) b := by
      calc crcByte 0 a
        _ = crcByte 0 (a ^^^ 0) ^^^ join b 0 ^^^ join b 0 := by simp
        _ = join a b ^^^ join b 0 := by rw [← crcByte_join, h]
        _ = join (a ^^^ b) b := by simp [join_xor_join]
    have hlow : lo8 (crcByte 0 a) = b := by rw [hrounds, lo8_join]
    have hhigh : hi8 (crcByte 0 a) ^^^ lo8 (crcByte 0 a) = a := by
      rw [hrounds, hi8_join, lo8_join, BitVec.xor_assoc, BitVec.xor_self, BitVec.xor_zero]
    obtain rfl | rfl := hi8_of_fixed a hhigh
    · left
      rw [← hlow]
      rfl
    · right
      rw [← hlow]
      rfl
  · rintro (rfl | rfl)
    · rfl
    · rfl

/-! ### One byte's step is a bijection (R120) -/

/-- Settles O7: the step is injective, and there are finitely many register values. -/
theorem crcByteIsABijectionOfTheRegister : Obligations.CrcByteIsABijectionOfTheRegister :=
  fun b => Finite.injective_iff_bijective.mp (crcByte_injective_register b)

/-- Settles O8: with the bytes around it fixed, the checksum is injective in one byte. -/
theorem changingOneByteChangesTheChecksum : Obligations.ChangingOneByteChangesTheChecksum :=
  fun before after _ _ hb => (crc16_injective_byte before after).ne hb

/-! ### The checksum that moves compute (R116) -/

/-- A move that does not disturb the checksum takes in the byte it hands over, if it hands one over. -/
theorem makeMove_keepsChecksum {m : Move} (hm : Claim.KeepsChecksum m) (s : State) :
    ∃ t, makeMove m s = .next t ∧ t.crc = crcFold s.crc (Claim.dataBytes [m]) := by
  cases m with
  | issue w =>
    cases hw : decodeOp w with
    | legal i =>
      obtain ⟨b, rfl⟩ := hm i hw
      exact ⟨_, issueWord_legal hw s, by simp [Claim.dataBytes, hw]⟩
    | illegal => exact ⟨_, issueWord_illegal hw s, by simp [Claim.dataBytes, hw]⟩
  | wrPbuf i b => exact ⟨_, rfl, State.memWrite_crc ..⟩
  | wrRxbuf i b => exact ⟨_, rfl, State.memWrite_crc ..⟩
  | _ => exact ⟨_, rfl, rfl⟩

theorem dataBytes_cons (m : Move) (ms : List Move) :
    Claim.dataBytes (m :: ms) = Claim.dataBytes [m] ++ Claim.dataBytes ms := by
  cases m with
  | issue w =>
    simp only [Claim.dataBytes]
    split
    · rfl
    · rfl
  | _ => rfl

theorem runMoves_cons {m : Move} {s t : State} (h : makeMove m s = .next t) (ms : List Move) :
    runMoves (m :: ms) s = runMoves ms t := by
  rw [runMoves, h]

/-- A list of moves that do not disturb the checksum takes in the bytes it hands over, in order. -/
theorem runMoves_keepsChecksum (ms : List Move) (hms : ∀ m ∈ ms, Claim.KeepsChecksum m) (s : State) :
    ∃ t, runMoves ms s = .next t ∧ t.crc = crcFold s.crc (Claim.dataBytes ms) := by
  induction ms generalizing s with
  | nil => exact ⟨s, rfl, rfl⟩
  | cons m ms ih =>
    obtain ⟨hm, hms⟩ := List.forall_mem_cons.mp hms
    obtain ⟨t, hmove, hcrc⟩ := makeMove_keepsChecksum hm s
    obtain ⟨u, hrun, hcrc'⟩ := ih hms t
    refine ⟨u, (runMoves_cons hmove ms).trans hrun, ?_⟩
    rw [hcrc', hcrc, dataBytes_cons m ms, crcFold_append]

/-- Settles O10: `CRC.INIT` sets the register to the initial value of `crc16`, and the moves after it fold their
bytes in. -/
theorem checksumThroughOperationsIsCrc16 : Obligations.ChecksumThroughOperationsIsCrc16 := by
  intro s ms hms
  obtain ⟨t, hrun, hcrc⟩ := runMoves_keepsChecksum ms hms (s.setCrc 0xFFFF)
  have hinit : makeMove (.issue 0x1000) s = .next (s.setCrc 0xFFFF) := rfl
  exact ⟨t, (runMoves_cons hinit ms).trans hrun, hcrc⟩

end Sys2Proof.Machine
end

section
/-! The frame functions together: what `frame_encode` gives is a frame of the protocol, `frame_decode` gives its payload
back, and rejects the frame when its end is missing (41_encode.md R131 to R134, 42_decode.md R145 and R148). -/

namespace Sys2Proof.Machine

/-! ### What `frame_encode` gives -/

theorem frameEncode_eq_oversize_iff (c : Byte) (p : List Byte) : frameEncode c p = .oversize ↔ 1024 < p.length := by
  unfold frameEncode
  split_ifs with h
  · exact iff_of_true rfl h
  · exact iff_of_false (by simp) h

/-- Settles O23: `frame_encode` has the one length test, and gives the frame of the payload when it passes. -/
theorem frameEncodeFailsExactlyAbove1024 : Obligations.FrameEncodeFailsExactlyAbove1024 := by
  intro c p
  refine ⟨frameEncode_eq_oversize_iff c p, fun hp => ?_⟩
  exact ⟨frameOf c p, (frameEncode_eq_frame_iff c p _).mpr ⟨hp, rfl⟩⟩

theorem frameOfProtocol_frameOf (c : Byte) {p : List Byte} (hp : p.length ≤ 1024) :
    frameOfProtocol (frameOf c p) = true := by
  simp [frameOfProtocol, wellFormedFrame_frameOf c hp, declaredLength_frameOf c hp, hp]

/-- The payload stands after the four header bytes. -/
theorem slice_frameOf_payload (c : Byte) (p : List Byte) : slice (frameOf c p) 4 (4 + p.length) = p := by
  rw [slice, Nat.add_sub_cancel_left]
  exact List.take_left

/-- Settles O22: these are the facts about the frame that `frame_encode` builds. -/
theorem encodedFrameIsAFrameOfTheProtocol : Obligations.EncodedFrameIsAFrameOfTheProtocol := by
  intro c p f henc
  obtain ⟨hp, rfl⟩ := (frameEncode_eq_frame_iff c p f).mp henc
  exact ⟨frameOfProtocol_frameOf c hp, frameOf_length c p, declaredLength_frameOf c hp, byteAt_frameOf_command c p,
    slice_frameOf_payload c p⟩

/-! ### The round trip (R148) -/

theorem frameDecode_frameOf (c : Byte) {p : List Byte} (hp : p.length ≤ 1024) :
    frameDecode (frameOf c p) = .accept c p := by
  obtain ⟨hmark, hlen, hcrc⟩ := (wellFormedFrame_iff _).mp (wellFormedFrame_frameOf c hp)
  rw [frameDecode_complete hmark hlen.ge, if_neg (not_not_intro hcrc.symm), byteAt_frameOf_command,
    declaredLength_frameOf c hp, slice_frameOf_payload]

/-- Settles O33: no check of `frame_decode` fires on the frame that `frame_encode` builds. -/
theorem frameDecodeInvertsFrameEncode : Obligations.FrameDecodeInvertsFrameEncode := by
  intro c p hp
  exact ⟨frameOf c p, (frameEncode_eq_frame_iff c p _).mpr ⟨hp, rfl⟩, frameDecode_frameOf c hp⟩

/-! ### A frame whose end is missing (R145) -/

theorem byteAt_take (s : List Byte) {i k : Nat} (h : i < k) : byteAt (s.take k) i = byteAt s i := by
  simp only [byteAt, List.getD_eq_getElem?_getD, List.getElem?_take, if_pos h]

/-- The bytes left of a well-formed frame still declare the whole frame's length. -/
theorem frameDecode_take {f : List Byte} {k : Nat} (hf : wellFormedFrame f = true) (hk : k < f.length) :
    frameDecode (f.take k) = .reject (if k < 6 then .short else .trunc) := by
  obtain ⟨hmark, hlen, -⟩ := (wellFormedFrame_iff f).mp hf
  have htake : (f.take k).length = k := List.length_take_of_le hk.le
  split_ifs with hshort
  · exact frameDecode_short (by omega)
  · have hdeclared : declaredLength (f.take k) = declaredLength f := by
      rw [declaredLength, byteAt_take f (by omega), byteAt_take f (by omega), declaredLength]
    apply frameDecode_trunc
    · omega
    · rwa [byteAt_take f (by omega)]
    · omega

/-- Settles O31: an encoded frame is well formed. -/
theorem everyShorterPrefixOfAFrameIsRejected : Obligations.EveryShorterPrefixOfAFrameIsRejected := by
  intro c p f k henc hk
  obtain ⟨hp, rfl⟩ := (frameEncode_eq_frame_iff c p f).mp henc
  exact frameDecode_take (wellFormedFrame_frameOf c hp) hk

end Sys2Proof.Machine
end

section
/-! The encoder's frame byte by byte, and that `ENC` depends on its operands only (30_encoding.md R80 to R85,
10_state.md R35, 70_reset_and_hazards.md R253). -/

namespace Sys2Proof.Machine

/-- Settles O21: the bytes of `TXBUF` after `ENC` are known one by one, and its checksum is that of the body. -/
theorem encPutsEachFieldAtItsOffset : Obligations.EncPutsEachFieldAtItsOffset := by
  intro c s hwf hn
  have hread := fun j => (encDone_memRead c s .txbuf j).trans (encFramed_txbuf c s j hwf)
  have hcrc : crc16 ((encDone c s).bytes .txbuf 1 (4 + s.plen.toNat)) = encCrc c s := by
    rw [encDone_bytes_body c hwf, encCrc_eq]
  have hbefore : ∀ j < 4, j ≠ 5 + s.plen.toNat ∧ j ≠ 4 + s.plen.toNat := by omega
  refine ⟨encDone c s, exec_enc_fits c hn, ?_, ?_, ?_, ?_, ?_, ?_, ?_⟩
  · simp [hread, hbefore]
  · simp [hread, hbefore]
  · simp [hread, hbefore, hi8_toNat]
  · simp [hread, hbefore, lo8_toNat]
  · intro i hi
    rw [hread, if_neg (by omega), if_neg (by omega), if_pos (by omega), Nat.add_sub_cancel_left]
  · rw [hcrc, hread, if_neg (by omega), if_pos rfl]
  · rw [hcrc, hread, if_pos rfl]

/-- Settles O25: when the payload fits, frame and checksum are functions of the command and of the bytes
`PBUF[0 .. PLEN)`; when it does not, nothing is offered. -/
theorem encDependsOnItsOperandsOnly : Obligations.EncDependsOnItsOperandsOnly := by
  intro c s s' hwf hwf' hplen hpbuf
  obtain hn | hn := Nat.lt_or_ge 1024 s.plen.toNat
  · refine ⟨_, _, exec_enc_oversize c hn, exec_enc_oversize c (hplen ▸ hn), rfl, rfl, ?_, ?_⟩
    · simp [State.bytes, State.readFrom]
    · simp [Code.value]
  · have hpayload : s.bytes .pbuf 0 s.plen.toNat = s'.bytes .pbuf 0 s'.plen.toNat := by
      rw [← hplen]
      exact State.bytes_congr fun i _ hi => hpbuf i hi
    have hn' : s'.plen.toNat ≤ 1024 := hplen ▸ hn
    refine ⟨_, _, exec_enc_fits c hn, exec_enc_fits c hn', ?_, ?_, ?_, ?_⟩
    · rw [encDone_status, encDone_status]
    · rw [encDone_txlen, encDone_txlen, hplen]
    · rw [encDone_txlen, encDone_txlen, encLength_toNat s hn, encLength_toNat s' hn', encDone_bytes_frame c hwf,
        encDone_bytes_frame c hwf', hpayload]
    · intro _
      rw [encDone_crc, encDone_crc, encCrc_eq, encCrc_eq, hpayload]

end Sys2Proof.Machine
end

section
/-! The decoder: the outcome of `DEC` as that of `frame_decode`, when it writes `CRC`, and that it depends on the
candidate buffer only, so that a second `DEC` changes nothing (42_decode.md R143, R145 and R150). -/

namespace Sys2Proof.Machine

/-! ### The outcome of `DEC` -/

/-- The registers and the payload in which `DEC` gives an outcome of `frame_decode` (R143). -/
def DecGives (t : State) : Parsed → Prop
  | .accept cmd p =>
    t.status = 0 ∧ t.rcmd = cmd ∧ t.rlen.toNat = p.length ∧ t.bytes .rxbuf 4 (4 + t.rlen.toNat) = p
  | .reject r => t.status = r.code.value ∧ t.rcmd = 0 ∧ t.rlen = 0

/-- The candidate buffer `RXBUF[0 .. RXLEN)`. -/
def State.candidate (s : State) : List Byte :=
  s.bytes .rxbuf 0 s.rxlen.toNat

@[simp] theorem State.candidate_length (s : State) : s.candidate.length = s.rxlen.toNat := by
  simp [State.candidate]

/-- A complete frame is judged by the two checksums that `DEC` compares. -/
theorem frameDecode_candidate {s : State} (hmark : s.memRead .rxbuf 0 = 0xAA)
    (hfits : 6 + (decDeclared s).toNat ≤ s.rxlen.toNat) :
    frameDecode s.candidate =
      if decComputed s ≠ decReceived s then .reject .crc
      else .accept (s.memRead .rxbuf 1) (s.bytes .rxbuf 4 (4 + (decDeclared s).toNat)) := by
  have hdeclared : declaredLength s.candidate = (decDeclared s).toNat := declaredLength_bytes s (by omega)
  have hmark' : byteAt s.candidate 0 = Config.start := (State.byteAt_bytes s _ (by omega)).trans hmark
  rw [frameDecode_complete hmark' (by rwa [hdeclared, State.candidate_length]), hdeclared, State.candidate,
    frameComputed_bytes s hfits, frameReceived_bytes s hfits, State.byteAt_bytes s _ (by omega),
    State.slice_bytes s _ (by omega) (by omega)]

theorem exec_dec_gives {s t : State} (hcap : s.rxlen.toNat ≤ 1030) (h : exec .dec s = .next t) :
    DecGives t (frameDecode s.candidate) := by
  obtain ⟨hrxlen, -⟩ | ⟨hshort, rfl⟩ | ⟨hmin, -, hmark, rfl⟩ | ⟨hmin, -, hmark, htrunc, rfl⟩ |
    ⟨-, hmark, hfits, hcrc, rfl⟩ | ⟨-, hmark, hfits, hcrc, rfl⟩ := execDec_cases h
  · omega
  · rw [frameDecode_short (by simpa using hshort)]
    exact ⟨rfl, rfl, rfl⟩
  · rw [frameDecode_marker (by simpa using hmin) (by rwa [State.candidate, State.byteAt_bytes s _ (by omega)])]
    exact ⟨rfl, rfl, rfl⟩
  · have hdeclared : declaredLength s.candidate = (decDeclared s).toNat := declaredLength_bytes s (by omega)
    have hmark' : byteAt s.candidate 0 = Config.start := (State.byteAt_bytes s _ (by omega)).trans hmark
    rw [frameDecode_trunc (by simpa using hmin) hmark' (by rwa [hdeclared, State.candidate_length])]
    exact ⟨rfl, rfl, rfl⟩
  · rw [frameDecode_candidate hmark hfits, if_pos hcrc]
    exact ⟨rfl, rfl, rfl⟩
  · rw [frameDecode_candidate hmark hfits, if_neg (not_not_intro hcrc)]
    exact ⟨rfl, rfl, by simp, State.bytes_congr fun i _ _ => by simp⟩

/-- Settles O27: each check of `DEC` is the check of `frame_decode` on the candidate buffer. -/
theorem decOutcomeIsFrameDecode : Obligations.DecOutcomeIsFrameDecode := by
  intro s hcap
  obtain ⟨t, h⟩ := exec_dec_completes s
  exact ⟨t, h, exec_dec_gives hcap h⟩

/-! ### When `DEC` writes `CRC` -/

/-- `CRC` is written when the declared length fits, which the status tells: `ST_OK` or `ST_CRC` (R143). -/
theorem exec_dec_crc {s t : State} (h : exec .dec s = .next t) :
    ((t.status = 0 ∨ t.status = 5) ∧ s.rxlen.toNat ≤ 1030 ∧ 6 + (decDeclared s).toNat ≤ s.rxlen.toNat ∧
        t.crc = decComputed s) ∨
      (¬ (t.status = 0 ∨ t.status = 5) ∧ t.crc = s.crc) := by
  obtain ⟨-, rfl⟩ | ⟨-, rfl⟩ | ⟨-, -, -, rfl⟩ | ⟨-, -, -, -, rfl⟩ | ⟨hcap, -, hfits, -, rfl⟩ |
    ⟨hcap, -, hfits, -, rfl⟩ := execDec_cases h
  on_goal 6 => exact .inl ⟨.inl rfl, hcap, hfits, rfl⟩
  on_goal 5 => exact .inl ⟨.inr rfl, hcap, hfits, rfl⟩
  all_goals exact .inr ⟨by simp [Code.value], rfl⟩

/-! ### What `DEC` depends on -/

theorem exec_dec_rxlen {s t : State} (hcap : 1030 < s.rxlen.toNat) (h : exec .dec s = .next t) :
    t.status = 6 ∧ t.rcmd = 0 ∧ t.rlen = 0 := by
  obtain ⟨-, rfl⟩ | ⟨hlen, -⟩ | ⟨-, hlen, -⟩ | ⟨-, hlen, -⟩ | ⟨hlen, -⟩ | ⟨hlen, -⟩ := execDec_cases h
  · exact ⟨rfl, rfl, rfl⟩
  all_goals omega

/-- An outcome of `frame_decode` fixes `STATUS`, `RCMD` and `RLEN`. -/
theorem DecGives.unique {t t' : State} {o : Parsed} (h : DecGives t o) (h' : DecGives t' o) :
    t.status = t'.status ∧ t.rcmd = t'.rcmd ∧ t.rlen = t'.rlen := by
  cases o with
  | accept cmd p =>
    obtain ⟨hstatus, hrcmd, hrlen, -⟩ := h
    obtain ⟨hstatus', hrcmd', hrlen', -⟩ := h'
    exact ⟨hstatus.trans hstatus'.symm, hrcmd.trans hrcmd'.symm, BitVec.eq_of_toNat_eq (hrlen.trans hrlen'.symm)⟩
  | reject r =>
    obtain ⟨hstatus, hrcmd, hrlen⟩ := h
    obtain ⟨hstatus', hrcmd', hrlen'⟩ := h'
    exact ⟨hstatus.trans hstatus'.symm, hrcmd.trans hrcmd'.symm, hrlen.trans hrlen'.symm⟩

section
variable {s s' t t' : State} (hrxlen : s.rxlen = s'.rxlen)
  (hrxbuf : ∀ i, i < s.rxlen.toNat → i < 1030 → s.memRead .rxbuf i = s'.memRead .rxbuf i)
include hrxlen hrxbuf

theorem candidate_eq (hcap : s.rxlen.toNat ≤ 1030) : s.candidate = s'.candidate := by
  rw [State.candidate, State.candidate, ← hrxlen]
  exact State.bytes_congr fun i _ hi => hrxbuf i hi (by omega)

variable (h : exec .dec s = .next t) (h' : exec .dec s' = .next t')
include h h'

/-- Two `DEC`s on the same candidate buffer report the same. -/
theorem exec_dec_report_congr : t.status = t'.status ∧ t.rcmd = t'.rcmd ∧ t.rlen = t'.rlen := by
  obtain hcap | hcap := Nat.lt_or_ge 1030 s.rxlen.toNat
  · obtain ⟨hstatus, hrcmd, hrlen⟩ := exec_dec_rxlen hcap h
    obtain ⟨hstatus', hrcmd', hrlen'⟩ := exec_dec_rxlen (hrxlen ▸ hcap) h'
    exact ⟨hstatus.trans hstatus'.symm, hrcmd.trans hrcmd'.symm, hrlen.trans hrlen'.symm⟩
  · have hgives' : DecGives t' (frameDecode s'.candidate) := exec_dec_gives (hrxlen ▸ hcap) h'
    rw [← candidate_eq hrxlen hrxbuf hcap] at hgives'
    exact (exec_dec_gives hcap h).unique hgives'

/-- Two `DEC`s on the same candidate buffer compute the same `CRC`, or both leave it. -/
theorem exec_dec_crc_congr : t.crc = t'.crc ∨ t.crc = s.crc ∧ t'.crc = s'.crc := by
  obtain ⟨hstatus, -, -⟩ := exec_dec_report_congr hrxlen hrxbuf h h'
  obtain ⟨hwritten, hcap, hfits, hcrc⟩ | ⟨hkept, hcrc⟩ := exec_dec_crc h
  · obtain ⟨-, hcap', hfits', hcrc'⟩ | ⟨hkept', -⟩ := exec_dec_crc h'
    · left
      rw [hcrc, hcrc', ← frameComputed_bytes s hfits, ← frameComputed_bytes s' hfits']
      exact congrArg frameComputed (candidate_eq hrxlen hrxbuf hcap)
    · exact absurd (hstatus ▸ hwritten) hkept'
  · obtain ⟨hwritten', -⟩ | ⟨-, hcrc'⟩ := exec_dec_crc h'
    · exact absurd (hstatus ▸ hwritten') hkept
    · exact .inr ⟨hcrc, hcrc'⟩

end

/-- Settles O29: the report is the outcome of `frame_decode` on the candidate buffer, and the `CRC` written is the
checksum of a part of it. -/
theorem decDependsOnTheCandidateBufferOnly : Obligations.DecDependsOnTheCandidateBufferOnly := by
  intro s s' hrxlen hrxbuf
  obtain ⟨t, h⟩ := exec_dec_completes s
  obtain ⟨t', h'⟩ := exec_dec_completes s'
  obtain ⟨hstatus, hrcmd, hrlen⟩ := exec_dec_report_congr hrxlen hrxbuf h h'
  exact ⟨t, t', h, h', hstatus, hrcmd, hrlen, exec_dec_crc_congr hrxlen hrxbuf h h'⟩

/-- Settles O30: the first `DEC` leaves the candidate buffer as it was, so the second reports the same, and computes the
`CRC` that the first wrote or leaves it. -/
theorem decAgainChangesNothing : Obligations.DecAgainChangesNothing := by
  intro s t h
  obtain ⟨u, hu⟩ := exec_dec_completes t
  obtain ⟨hrxlen, -⟩ := exec_dec_lengths h
  have hrxbuf : ∀ i, i < s.rxlen.toNat → i < 1030 → s.memRead .rxbuf i = t.memRead .rxbuf i :=
    fun i _ _ => (exec_dec_bufferKept h .rxbuf i).symm
  obtain ⟨hstatus, hrcmd, hrlen⟩ := exec_dec_report_congr hrxlen.symm hrxbuf h hu
  have hcrc : t.crc = u.crc := by
    obtain hcrc | ⟨-, hcrc⟩ := exec_dec_crc_congr hrxlen.symm hrxbuf h hu
    · exact hcrc
    · exact hcrc.symm
  have hut : u = t := by
    obtain ⟨rcmd, rlen, crc, status, rfl⟩ := exec_dec_state hu
    obtain rfl : t.status = status := hstatus
    obtain rfl : t.rcmd = rcmd := hrcmd
    obtain rfl : t.rlen = rlen := hrlen
    obtain rfl : t.crc = crc := hcrc
    rfl
  rwa [hut] at hu

end Sys2Proof.Machine
end

section
/-! The step: it always answers, what it can do seen from the block's results, and the invariants that every step keeps
(43_host_interface.md R173, 10_state.md R36, 41_encode.md R134 and R135, 60_exceptions.md R226). -/

namespace Sys2Proof.Machine

/-! ### The step always answers -/

theorem issueWord_completes (w : Word) (s : State) : ∃ t, issueWord w s = .next t := by
  cases hw : decodeOp w with
  | legal i =>
    rw [issueWord_legal hw]
    exact exec_completes i s
  | illegal => exact ⟨_, issueWord_illegal hw s⟩

theorem makeMove_completes (m : Move) (s : State) : ∃ t, makeMove m s = .next t := by
  cases m with
  | issue w => exact issueWord_completes w s
  | _ => exact ⟨_, rfl⟩

/-- Settles O18: the step takes the first pending event, and there is none. -/
theorem idleBlockKeepsItsState : Obligations.IdleBlockKeepsItsState :=
  fun _ => stepEvent_idle

/-- Settles O19: an idle step, a host move and a reset each answer a next state. -/
theorem everyStepAnswersANextState : Obligations.EveryStepAnswersANextState := by
  intro s
  cases hp : s.pending with
  | nil => exact ⟨s, idleBlockKeepsItsState s hp⟩
  | cons e es =>
    cases e with
    | move m =>
      obtain ⟨t, ht⟩ := makeMove_completes m (s.setPending es)
      exact ⟨t, (step_move hp).trans ht⟩
    | reset => exact ⟨_, step_reset hp⟩

/-- Settles O16: the placed word is the first pending event, and taking it leaves the state it was placed in. -/
theorem placedWordRunsNext : Obligations.PlacedWordRunsNext := by
  intro s nbits w i hw
  have hdecode : decodeOp (tableWord nbits w) = .legal i := by
    cases h : decodeOp (tableWord nbits w) with
    | legal j => simpa [decodeTableWord, h] using hw
    | illegal => simp [decodeTableWord, h] at hw
  have hpending : (s.withFetchWord nbits w).pending = .move (.issue (tableWord nbits w)) :: s.pending := rfl
  exact step_issue_legal hpending hdecode

/-! ### A step seen from the results of `ENC` and `DEC` -/

/-- The results of `ENC` and `DEC` are as before. -/
structure ResultsKept (s t : State) : Prop where
  txlen : t.txlen = s.txlen
  rcmd : t.rcmd = s.rcmd
  rlen : t.rlen = s.rlen
  status : t.status = s.status
  txbuf : Claim.BufferKept .txbuf s t

theorem resultsKept_setPending (s : State) (es : List Event) : ResultsKept s (s.setPending es) :=
  ⟨rfl, rfl, rfl, rfl, State.setPending_memRead s es .txbuf⟩

/-- A host write reaches `PBUF` and `RXBUF` and no result. -/
theorem resultsKept_memWrite (s : State) (es : List Event) {B : Buf} (hB : .txbuf ≠ B) (i : Nat) (b : Byte) :
    ResultsKept s ((s.setPending es).memWrite B i b) := by
  obtain ⟨-, -, htxlen, -, hrcmd, hrlen, hstatus⟩ := registersKept_setPending_memWrite s es B i b
  exact ⟨htxlen, hrcmd, hrlen, hstatus, bufferKept_setPending_memWrite s es i b hB⟩

/-- For the results of `ENC` and `DEC` a step is one of these operations, an illegal word, a reset, or nothing. -/
theorem step_results_cases {s t : State} (h : step s = .next t) :
    ResultsKept s t ∨ (∃ c es, exec (.enc c) (s.setPending es) = .next t) ∨
      (∃ es, exec .dec (s.setPending es) = .next t) ∨ (∃ es, t = (s.setPending es).report .stIllegal) ∨
      ∃ es, t = (s.setPending es).resetEvent := by
  obtain ⟨-, rfl⟩ | ⟨e, es, -, he⟩ := stepEvent_cases h
  · exact .inl ⟨rfl, rfl, rfl, rfl, fun _ => rfl⟩
  obtain ⟨_, i, -, -, hi⟩ | ⟨_, -, -, rfl⟩ | ⟨_, -, rfl⟩ | ⟨_, -, rfl⟩ | ⟨i, b, -, rfl⟩ | ⟨i, b, -, rfl⟩ |
    ⟨_, a, -, rfl⟩ | ⟨-, rfl⟩ := he
  · cases i with
    | crcInit => cases hi; exact .inl ⟨rfl, rfl, rfl, rfl, fun _ => by simp⟩
    | crcByte b => cases hi; exact .inl ⟨rfl, rfl, rfl, rfl, fun _ => by simp⟩
    | enc c => exact .inr (.inl ⟨c, es, hi⟩)
    | dec => exact .inr (.inr (.inl ⟨es, hi⟩))
  · exact .inr (.inr (.inr (.inl ⟨es, rfl⟩)))
  · exact .inl ⟨rfl, rfl, rfl, rfl, fun _ => by simp⟩
  · exact .inl ⟨rfl, rfl, rfl, rfl, fun _ => by simp⟩
  · exact .inl (resultsKept_memWrite s es (by decide) i b)
  · exact .inl (resultsKept_memWrite s es (by decide) i b)
  · exact .inl ⟨rfl, rfl, rfl, rfl, fun _ => by simp⟩
  · exact .inr (.inr (.inr (.inr ⟨es, rfl⟩)))

/-- A property of the results that `ENC`, `DEC`, the illegal word and the reset keep is kept by every step. -/
theorem step_keeps_results {P : State → Prop} {s t : State} (hs : P s) (h : step s = .next t)
    (congr : ∀ {u v}, ResultsKept u v → P u → P v) (enc : ∀ {c u v}, P u → exec (.enc c) u = .next v → P v)
    (dec : ∀ {u v}, P u → exec .dec u = .next v → P v) (illegal : ∀ {u}, P u → P (u.report .stIllegal))
    (reset : ∀ u : State, P u.resetEvent) : P t := by
  have htaken : ∀ es, P (s.setPending es) := fun es => congr (resultsKept_setPending s es) hs
  obtain hkept | ⟨c, es, hc⟩ | ⟨es, hd⟩ | ⟨es, rfl⟩ | ⟨es, rfl⟩ := step_results_cases h
  · exact congr hkept hs
  · exact enc (htaken es) hc
  · exact dec (htaken es) hd
  · exact illegal (htaken es)
  · exact reset _

/-! ### The register invariants (10_state.md R36) -/

theorem State.Legal.congr {s t : State} (hkept : ResultsKept s t) (hs : s.Legal) : t.Legal := by
  obtain ⟨hreserved, htxlen, hrlen, hcleared⟩ := hs
  refine ⟨?_, ?_, ?_, ?_⟩
  · rwa [State.statusReserved, hkept.status]
  · rwa [hkept.txlen]
  · rwa [hkept.rlen]
  · rwa [State.rejectCleared, hkept.status, hkept.rcmd, hkept.rlen]

/-- The codes that `DEC` does not report say nothing of `RCMD` and `RLEN` (R36 (d)). -/
theorem State.rejectCleared_of_status {s : State} (h : s.status = 0 ∨ s.status = 1 ∨ s.status = 7) :
    s.rejectCleared := by
  obtain h | h | h := h
  all_goals simp [State.rejectCleared, h, Code.value]

theorem legal_enc {c : Byte} {s t : State} (hs : s.Legal) (h : exec (.enc c) s = .next t) : t.Legal := by
  obtain ⟨-, -, -, hrlen⟩ := exec_enc_registers h
  have hrlen : t.rlen.toNat ≤ Config.rxcap - Config.overhead := by rw [hrlen]; exact hs.rlen
  obtain ⟨-, rfl⟩ | ⟨hn, rfl⟩ := execEnc_cases h
  · exact ⟨State.report_statusReserved _ _, .inl rfl, hrlen, State.rejectCleared_of_status (.inr (.inl rfl))⟩
  · have hlen : (6 + s.plen).toNat = 6 + s.plen.toNat := encLength_toNat s hn
    have htxlen : 6 ≤ (6 + s.plen).toNat ∧ (6 + s.plen).toNat ≤ Config.txcap := by
      rw [hlen, Config.txcap]; omega
    exact ⟨State.report_statusReserved _ _, .inr htxlen, hrlen, State.rejectCleared_of_status (.inl rfl)⟩

/-- A reject leaves `RCMD = RLEN = 0`, which is all that its report asks for. -/
theorem legal_of_rejected {s t : State} (hs : s.Legal) (hreserved : t.statusReserved = 0) (htxlen : t.txlen = s.txlen)
    (hrcmd : t.rcmd = 0) (hrlen : t.rlen = 0) : t.Legal := by
  refine ⟨hreserved, ?_, ?_, fun _ => ⟨hrcmd, hrlen⟩⟩
  · rw [htxlen]; exact hs.txlen
  · rw [hrlen]; exact Nat.zero_le _

theorem legal_dec {s t : State} (hs : s.Legal) (h : exec .dec s = .next t) : t.Legal := by
  obtain ⟨-, rfl⟩ | ⟨-, rfl⟩ | ⟨-, -, -, rfl⟩ | ⟨-, -, -, -, rfl⟩ | ⟨-, -, -, -, rfl⟩ | ⟨hcap, -, hfits, -, rfl⟩ :=
    execDec_cases h
  on_goal 6 =>
    have hrlen : (decDeclared s).toNat ≤ Config.rxcap - Config.overhead := by
      rw [Config.rxcap, Config.overhead]; omega
    exact ⟨State.report_statusReserved _ _, hs.txlen, hrlen, State.rejectCleared_of_status (.inl rfl)⟩
  all_goals exact legal_of_rejected hs (State.report_statusReserved _ _) rfl rfl rfl

theorem legal_illegal {s : State} (hs : s.Legal) : (s.report .stIllegal).Legal :=
  ⟨State.report_statusReserved _ _, hs.txlen, hs.rlen, State.rejectCleared_of_status (.inr (.inr rfl))⟩

/-- Registers at 0, as after a reset, are legal. -/
theorem legal_of_zero {s : State} (hstatus : s.status = 0) (htxlen : s.txlen = 0) (hrlen : s.rlen = 0) : s.Legal := by
  refine ⟨?_, .inl htxlen, ?_, State.rejectCleared_of_status (.inl hstatus)⟩
  · rw [State.statusReserved, hstatus]; rfl
  · rw [hrlen]; exact Nat.zero_le _

theorem legal_resetEvent (s : State) : s.resetEvent.Legal :=
  legal_of_zero rfl rfl rfl

/-- Settles O41: R36 speaks of results only, so `ENC`, `DEC`, the illegal word and the reset are all there is to
check. -/
theorem everyStepKeepsTheLegalRegisters : Obligations.EveryStepKeepsTheLegalRegisters :=
  fun _ _ hs h => step_keeps_results hs h State.Legal.congr legal_enc legal_dec legal_illegal legal_resetEvent

/-! ### The frame offered in `TXBUF` (41_encode.md R134, R135) -/

theorem State.txFrame_congr {s t : State} (htxlen : t.txlen = s.txlen) (htxbuf : Claim.BufferKept .txbuf s t)
    (hs : s.txFrame) : t.txFrame := by
  have hbytes : t.bytes .txbuf 0 s.txlen.toNat = s.bytes .txbuf 0 s.txlen.toNat :=
    State.bytes_congr fun i _ _ => htxbuf i
  rwa [State.txFrame, htxlen, hbytes]

/-- `ENC` offers the frame it has written or none (R134), whatever was offered before. -/
theorem txFrame_enc {c : Byte} {s t : State} (hwf : s.memWf = true) (h : exec (.enc c) s = .next t) : t.txFrame := by
  obtain hn | hn := Nat.lt_or_ge 1024 s.plen.toNat
  · rw [exec_enc_oversize c hn] at h
    cases h
    exact .inl rfl
  · rw [exec_enc_fits c hn] at h
    cases h
    right
    obtain ⟨htxbuf, -⟩ := (State.memWf_iff s).mp hwf .txbuf
    rw [encDone_txlen, encLength_toNat s hn, encDone_bytes_frame c htxbuf]
    exact frameOfProtocol_frameOf c (by simpa using hn)

theorem txFrame_dec {s t : State} (hs : s.txFrame) (h : exec .dec s = .next t) : t.txFrame := by
  obtain ⟨-, -, htxlen⟩ := exec_dec_lengths h
  exact State.txFrame_congr htxlen (exec_dec_bufferKept h .txbuf) hs

/-- Settles O42: `ENC` offers a new frame or none; every other event that leaves a frame offered leaves `TXLEN` and
`TXBUF` as they were. -/
theorem everyStepKeepsTheOfferedFrame : Obligations.EveryStepKeepsTheOfferedFrame := by
  intro s t hwf hs h
  have hwf' : ∀ es, (s.setPending es).memWf = true := fun _ => hwf
  have htaken : ∀ es, (s.setPending es).txFrame := fun es =>
    State.txFrame_congr (s := s) rfl (State.setPending_memRead s es .txbuf) hs
  obtain hkept | ⟨c, es, hc⟩ | ⟨es, hd⟩ | ⟨es, rfl⟩ | ⟨es, rfl⟩ := step_results_cases h
  · exact State.txFrame_congr hkept.txlen hkept.txbuf hs
  · exact txFrame_enc (hwf' es) hc
  · exact txFrame_dec (htaken es) hd
  · exact State.txFrame_congr (s := s.setPending es) rfl (State.report_memRead _ _ .txbuf) (htaken es)
  · exact .inl rfl

/-! ### The form of the buffers (20_memory.md R50, log entry 4) -/

theorem memWf_exec {i : Instr} {s t : State} (hwf : s.memWf = true) (h : exec i s = .next t) : t.memWf = true := by
  cases i with
  | crcInit => cases h; exact hwf
  | crcByte b => cases h; exact hwf
  | enc c =>
    obtain ⟨-, rfl⟩ | ⟨hn, rfl⟩ := execEnc_cases h
    · exact hwf
    · exact encFramed_memWf c s hn hwf
  | dec =>
    obtain ⟨_, _, _, _, rfl⟩ := exec_dec_state h
    exact hwf

/-- Settles O43: only `ENC` and the two host writes of a byte list anything, each at an index of its buffer. -/
theorem everyStepKeepsTheBuffersCanonical : Obligations.EveryStepKeepsTheBuffersCanonical := by
  intro s t hwf h
  obtain ⟨-, rfl⟩ | ⟨e, es, -, he⟩ := stepEvent_cases h
  · exact hwf
  have htaken : (s.setPending es).memWf = true := hwf
  obtain ⟨_, i, -, -, hi⟩ | ⟨_, -, -, rfl⟩ | ⟨_, -, rfl⟩ | ⟨_, -, rfl⟩ | ⟨i, b, -, rfl⟩ | ⟨i, b, -, rfl⟩ |
    ⟨_, _, -, rfl⟩ | ⟨-, rfl⟩ := he
  · exact memWf_exec htaken hi
  · exact htaken
  · exact htaken
  · exact htaken
  · exact State.memWrite_memWf _ b i.isLt htaken
  · exact State.memWrite_memWf _ b i.isLt htaken
  · exact htaken
  · exact State.reset_memWf

/-! ### No frame while `ST_OVERSIZE` stands (60_exceptions.md R226) -/

/-- Only `ENC` reports `ST_OVERSIZE`, and it clears `TXLEN` when it does. -/
theorem oversizeCleared_enc {c : Byte} {s t : State} (h : exec (.enc c) s = .next t) : t.oversizeCleared := by
  obtain ⟨-, rfl⟩ | ⟨-, rfl⟩ := execEnc_cases h
  · exact fun _ => rfl
  · exact fun hstatus => absurd hstatus (by simp [Code.value])

theorem dec_status_ne_oversize {s t : State} (h : exec .dec s = .next t) : t.status ≠ Code.stOversize.value := by
  obtain ⟨-, rfl⟩ | ⟨-, rfl⟩ | ⟨-, -, -, rfl⟩ | ⟨-, -, -, -, rfl⟩ | ⟨-, -, -, -, rfl⟩ | ⟨-, -, -, -, rfl⟩ :=
    execDec_cases h
  all_goals simp [Code.value]

/-- Settles O44: a step either leaves `STATUS` and `TXLEN` alone, or is `ENC`, or reports another code. -/
theorem everyStepKeepsOversizeWithoutFrame : Obligations.EveryStepKeepsOversizeWithoutFrame := by
  intro s t hs h
  refine step_keeps_results hs h ?_ (fun _ hc => oversizeCleared_enc hc) ?_ ?_ ?_
  · intro u v hkept hu
    rwa [State.oversizeCleared, hkept.status, hkept.txlen]
  · exact fun _ hd hstatus => absurd hstatus (dec_status_ne_oversize hd)
  · exact fun _ hstatus => absurd hstatus (by simp [Code.value])
  · exact fun _ _ => rfl

/-! ### The reset state -/

/-- Settles O45: at reset `STATUS`, `TXLEN` and `RLEN` are 0 and no buffer lists a byte. -/
theorem resetMeetsEveryInvariant : Obligations.ResetMeetsEveryInvariant :=
  ⟨legal_of_zero rfl rfl rfl, .inl rfl, State.reset_memWf, fun _ => rfl⟩

end Sys2Proof.Machine
end

section
/-! Who writes what: the events that may change each register and buffer (10_state.md R22). -/

namespace Sys2Proof.Machine

/-- Taking an event touches no buffer. -/
theorem bufferKept_of_setPending {B : Buf} {s t : State} {es : List Event}
    (h : Claim.BufferKept B (s.setPending es) t) : Claim.BufferKept B s t :=
  fun i => (h i).trans (State.setPending_memRead s es B i)

/-- An `ENC` that does not end with `ST_OK` writes neither `CRC` nor `TXBUF`. -/
theorem exec_enc_failed {c : Byte} {s t : State} (h : exec (.enc c) s = .next t) (hstatus : t.status ≠ 0) :
    t.crc = s.crc ∧ Claim.BufferKept .txbuf s t := by
  obtain ⟨-, rfl⟩ | ⟨-, rfl⟩ := execEnc_cases h
  · exact ⟨rfl, fun i => by simp⟩
  · exact absurd rfl hstatus

/-- Settles O38: one event at a time; what its rule leaves unchanged meets its clauses vacuously, and for what it writes
the event is one of those named. -/
theorem eachStateItemHasOnlyItsWriters : Obligations.EachStateItemHasOnlyItsWriters := by
  intro s t h
  obtain ⟨-, rfl⟩ | ⟨e, es, hp, he⟩ := stepEvent_cases h
  · simp [Claim.BufferKept]
  obtain ⟨w, i, rfl, hw, hi⟩ | ⟨w, rfl, hw, rfl⟩ | ⟨v, rfl, rfl⟩ | ⟨v, rfl, rfl⟩ | ⟨i, b, rfl, rfl⟩ | ⟨i, b, rfl, rfl⟩ |
    ⟨m, a, rfl, rfl⟩ | ⟨rfl, rfl⟩ := he
  · have hissues : ∀ p : Instr → Prop, p i → Claim.Issues s p := fun _ hpi => ⟨w, i, es, hp, hw, hpi⟩
    cases i with
    | crcInit =>
      cases hi
      refine ⟨fun _ => .inr (hissues _ (.inl rfl)), ?_⟩
      simp [Claim.BufferKept]
    | crcByte b =>
      cases hi
      refine ⟨fun _ => .inr (hissues _ (.inr (.inl ⟨b, rfl⟩))), ?_⟩
      simp [Claim.BufferKept]
    | enc c =>
      obtain ⟨hplen, hrxlen, hrcmd, hrlen⟩ := exec_enc_registers hi
      have hpbuf := bufferKept_of_setPending (exec_enc_pbufKept hi)
      have hrxbuf := bufferKept_of_setPending (exec_enc_rxbufKept hi)
      refine ⟨fun hcrc => ?_, absurd hplen, absurd hrxlen, fun _ => .inr (hissues _ ⟨c, rfl⟩),
        fun hne => hne.elim (absurd hrcmd) (absurd hrlen), fun _ => .inr (.inr (hissues _ (.inr ⟨c, rfl⟩))),
        absurd hpbuf, absurd hrxbuf, fun htxbuf => ?_⟩
      · have hstatus : t.status = 0 := by
          by_contra hstatus
          obtain ⟨hkept, -⟩ := exec_enc_failed hi hstatus
          exact hcrc hkept
        exact .inr (hissues _ (.inr (.inr (.inl ⟨⟨c, rfl⟩, hstatus⟩))))
      · have hstatus : t.status = 0 := by
          by_contra hstatus
          obtain ⟨-, hkept⟩ := exec_enc_failed hi hstatus
          exact htxbuf (bufferKept_of_setPending hkept)
        exact .inr (hissues _ ⟨⟨c, rfl⟩, hstatus⟩)
    | dec =>
      obtain ⟨hrxlen, hplen, htxlen⟩ := exec_dec_lengths hi
      have hbuf := fun B => bufferKept_of_setPending (exec_dec_bufferKept hi B)
      refine ⟨fun hcrc => ?_, absurd hplen, absurd hrxlen, absurd htxlen, fun _ => .inr (hissues _ rfl),
        fun _ => .inr (.inr (hissues _ (.inl rfl))), absurd (hbuf .pbuf), absurd (hbuf .rxbuf), absurd (hbuf .txbuf)⟩
      obtain ⟨hstatus, -⟩ | ⟨-, hkept⟩ := exec_dec_crc hi
      · exact .inr (hissues _ (.inr (.inr (.inr ⟨rfl, hstatus⟩))))
      · exact absurd hkept hcrc
  · have hillegal : Claim.IssuesIllegal s := ⟨w, es, hp, hw⟩
    simp [Claim.BufferKept, hillegal]
  · have hmoves : ∃ v, Claim.Moves s (.wrPlen v) := ⟨v, es, hp⟩
    simp [Claim.BufferKept, hmoves]
  · have hmoves : ∃ v, Claim.Moves s (.wrRxlen v) := ⟨v, es, hp⟩
    simp [Claim.BufferKept, hmoves]
  · have hmoves : ∃ i b, Claim.Moves s (.wrPbuf i b) := ⟨i, b, es, hp⟩
    have htxbuf := bufferKept_setPending_memWrite (B := .pbuf) (C := .txbuf) s es i.val b (by decide)
    have hrxbuf := bufferKept_setPending_memWrite (B := .pbuf) (C := .rxbuf) s es i.val b (by decide)
    simp [hmoves, htxbuf, hrxbuf]
  · have hmoves : ∃ i b, Claim.Moves s (.wrRxbuf i b) := ⟨i, b, es, hp⟩
    have htxbuf := bufferKept_setPending_memWrite (B := .rxbuf) (C := .txbuf) s es i.val b (by decide)
    have hpbuf := bufferKept_setPending_memWrite (B := .rxbuf) (C := .pbuf) s es i.val b (by decide)
    simp [hmoves, htxbuf, hpbuf]
  · simp [Claim.BufferKept]
  · have hresets : Claim.Resets s := ⟨es, hp⟩
    simp [hresets]

end Sys2Proof.Machine
end

section
/-! The loopback: `LOOPBACK` hands the encoded frame to the decoder, which gives command and payload back
(30_encoding.md R98, 42_decode.md R148). -/

namespace Sys2Proof.Machine

/-- The state after one byte of a loopback: it has been read from `TXBUF` and `b` written to `RXBUF`. -/
def State.copied (u : State) (i : Nat) (b : Byte) : State :=
  (u.setAnswer (.byte (u.memRead .txbuf i))).memWrite .rxbuf i b

theorem runMoves_copyByte (u : State) (i : Nat) (hi : i < Config.rxcap) (b : Byte) (ms : List Move) :
    runMoves (.rdTxbuf ⟨i, hi⟩ :: .wrRxbuf ⟨i, hi⟩ b :: ms) u = runMoves ms (u.copied i b) :=
  rfl

theorem State.copied_memRead {u : State} (hwf : u.rxbuf.wf = true) (i j : Nat) (b : Byte) :
    (u.copied i b).memRead .rxbuf j = if j = i then b else u.memRead .rxbuf j :=
  State.memRead_memWrite (B := .rxbuf) _ i j b hwf

theorem State.copied_wf {u : State} (hwf : u.rxbuf.wf = true) (i : Nat) (b : Byte) : (u.copied i b).rxbuf.wf = true :=
  State.memWrite_wf _ .rxbuf .rxbuf i b hwf

/-- A loopback moves the bytes of `TXBUF`, as they stand in `t`, to the same indexes of `RXBUF`. -/
theorem runMoves_loopbackFrom (t : State) (ms : List Move) {k i : Nat} {u : State} (hik : i + k ≤ Config.rxcap)
    (hwf : u.rxbuf.wf = true) :
    ∃ v, runMoves (loopbackFrom t k i ++ ms) u = runMoves ms v ∧
      ∀ j, v.memRead .rxbuf j = if i ≤ j ∧ j < i + k then t.memRead .txbuf j else u.memRead .rxbuf j := by
  induction k generalizing i u with
  | zero => exact ⟨u, rfl, fun j => by rw [if_neg (by omega)]⟩
  | succ k ih =>
    have hi : i < Config.rxcap := by omega
    obtain ⟨v, hrun, hread⟩ :=
      ih (i := i + 1) (u := u.copied i (t.memRead .txbuf i)) (by omega) (State.copied_wf hwf i _)
    refine ⟨v, ?_, fun j => ?_⟩
    · rw [loopbackFrom, dif_pos hi, List.cons_append, List.cons_append, runMoves_copyByte, hrun]
    · rw [hread, State.copied_memRead hwf]
      by_cases hj : j = i
      · rw [if_neg (by omega), if_pos hj, if_pos (by omega), hj]
      · rw [if_neg hj]
        exact if_congr (by omega) rfl rfl

/-- After `LOOPBACK` the candidate buffer is what `TXBUF` offers. -/
theorem runMoves_loopback {t : State} (htxlen : t.txlen.toNat ≤ Config.rxcap) (hwf : t.rxbuf.wf = true) :
    ∃ u, runMoves (loopback t) t = .next u ∧ u.rxlen = t.txlen ∧ u.candidate = t.bytes .txbuf 0 t.txlen.toNat := by
  obtain ⟨v, hrun, hread⟩ :=
    runMoves_loopbackFrom t [.wrRxlen t.txlen] (k := t.txlen.toNat) (i := 0) (u := t) (by omega) hwf
  refine ⟨v.setRxlen t.txlen, hrun, rfl, State.readFrom_congr fun j hj => ?_⟩
  have hj : j < t.txlen.toNat := hj
  rw [State.setRxlen_memRead, hread, if_pos (by omega)]

/-- Settles O34: the loopback makes the candidate buffer the encoded frame, and `frame_decode` gives its command and
payload back. -/
theorem encLoopbackDecReturnsThePayload : Obligations.EncLoopbackDecReturnsThePayload := by
  intro c s t hwf henc hstatus
  obtain ⟨hrxbuf, -⟩ := (State.memWf_iff t).mp (memWf_exec hwf henc) .rxbuf
  obtain ⟨htxbuf, -⟩ := (State.memWf_iff s).mp hwf .txbuf
  obtain ⟨-, rfl⟩ | ⟨hn, ht⟩ := execEnc_cases henc
  · exact absurd hstatus (by simp [Code.value])
  obtain rfl : t = encDone c s := ht
  have htxlen : (encDone c s).txlen.toNat = 6 + s.plen.toNat := encLength_toNat s hn
  obtain ⟨u, hrun, hrxlen, hcandidate⟩ := runMoves_loopback (by rw [htxlen, Config.rxcap]; omega) hrxbuf
  obtain ⟨v, hdec⟩ := exec_dec_completes u
  have hgives : DecGives v (.accept c (s.bytes .pbuf 0 s.plen.toNat)) := by
    rw [← frameDecode_frameOf c (by simpa using hn), ← encDone_bytes_frame c htxbuf, ← htxlen, ← hcandidate]
    exact exec_dec_gives (by rw [hrxlen, htxlen]; omega) hdec
  obtain ⟨hok, hrcmd, hrlen, hpayload⟩ := hgives
  have hrlen : v.rlen = s.plen := BitVec.eq_of_toNat_eq (by simpa using hrlen)
  exact ⟨u, v, hrun, hdec, hok, hrcmd, hrlen, hpayload⟩

end Sys2Proof.Machine
end

section
/-! The operations straight after a reset (70_reset_and_hazards.md R253). -/

namespace Sys2Proof.Machine

theorem frameOf_nil (c : Byte) :
    frameOf c [] = [0xAA, c, 0x00, 0x00, hi8 (crc16 [c, 0x00, 0x00]), lo8 (crc16 [c, 0x00, 0x00])] :=
  rfl

/-- `ENC` of no payload. -/
theorem exec_enc_empty (c : Byte) {z : State} (hwf : z.txbuf.wf = true) (hplen : z.plen = 0) :
    ∃ t, exec (.enc c) z = .next t ∧ t.status = 0 ∧ t.txlen = 6 ∧
      t.bytes .txbuf 0 6 = [0xAA, c, 0x00, 0x00, hi8 (crc16 [c, 0x00, 0x00]), lo8 (crc16 [c, 0x00, 0x00])] := by
  have hn : z.plen.toNat = 0 := by rw [hplen]; rfl
  have hframe := encDone_bytes_frame c hwf
  rw [hn] at hframe
  refine ⟨encDone c z, exec_enc_fits c (by omega), encDone_status c z, ?_,
    hframe.trans (frameOf_nil c)⟩
  rw [encDone_txlen, hplen]
  rfl

/-- `DEC` of no candidate buffer. -/
theorem exec_dec_empty {z : State} (hrxlen : z.rxlen = 0) :
    ∃ t, exec .dec z = .next t ∧ t.status = 2 ∧ t.crc = z.crc := by
  obtain ⟨t, h⟩ := exec_dec_completes z
  have hlen : z.rxlen.toNat = 0 := by rw [hrxlen]; rfl
  obtain ⟨hstatus, -⟩ : DecGives t (.reject .short) := by
    rw [← frameDecode_short (f := z.candidate) (by simp [hlen])]
    exact exec_dec_gives (by omega) h
  have hstatus : t.status = 2 := hstatus
  obtain ⟨-, -, hfits, -⟩ | ⟨-, hcrc⟩ := exec_dec_crc h
  · omega
  · exact ⟨t, h, hstatus, hcrc⟩

/-- Settles O40: after a reset `CRC = 0xFFFF`, `PLEN = RXLEN = 0` and `TXBUF` lists nothing. -/
theorem operationsStraightAfterReset : Obligations.OperationsStraightAfterReset := by
  intro z hz
  obtain ⟨hcrc, hplen, hrxlen, htxbuf⟩ : z.crc = 0xFFFF ∧ z.plen = 0 ∧ z.rxlen = 0 ∧ z.txbuf = [] := by
    obtain rfl | ⟨s, rfl⟩ := hz
    · exact ⟨rfl, rfl, rfl, rfl⟩
    · exact ⟨rfl, rfl, rfl, rfl⟩
  refine ⟨fun b => ⟨_, exec_crcByte b z, ?_⟩, fun c => exec_enc_empty c ?_ hplen, ?_⟩
  · rw [State.setCrc_crc, hcrc]
  · rw [htxbuf]; rfl
  · rw [← hcrc]
    exact exec_dec_empty hrxlen

end Sys2Proof.Machine
end

section
/-! The payload software: appends are all or nothing and are read back, reads consume what they answer, and text is read
back with only its invalid stretches replaced (45_payload_software.md R182 to R195). -/

namespace Sys2Proof.Machine

/-! ### The serializer -/

theorem appendBytes_eq_appendOf (p : Builder) (bs : List Byte) : appendBytes p bs = Claim.AppendOf p bs := by
  unfold Claim.AppendOf
  split_ifs with h
  · exact appendBytes_fits h
  · exact appendBytes_full (by omega)

theorem bigEndian_singleton (b : Byte) : bigEndian [b] = b.toNat := by
  simp [bigEndian]

/-- The two bytes of a 16-bit value, joined in order, are the value. -/
theorem bigEndian_halves (v : Word) : bigEndian [hi8 v, lo8 v] = v.toNat := by
  rw [← congrArg BitVec.toNat (join_hi8_lo8 v), join_toNat]
  simp [bigEndian]

/-- The four bytes of a 32-bit pattern, joined in order, are the pattern. -/
theorem bigEndian_bytesOf32 (w : BitVec 32) : bigEndian (bytesOf32 w) = w.toNat := by
  have hw : w.toNat < 2 ^ 32 := w.isLt
  simp only [bigEndian, bytesOf32, List.foldl, BitVec.extractLsb'_toNat, Nat.shiftRight_eq_div_pow]
  omega

/-- Settles O46: every append is `appendBytes` of the value's bytes. -/
theorem appendIsAllOrNothing : Obligations.AppendIsAllOrNothing := by
  intro p b v w bs text
  have happend := appendBytes_eq_appendOf p
  refine ⟨happend _, happend _, happend _, ?_, happend _, ?_⟩
  · refine ⟨w.extractLsb' 24 8, w.extractLsb' 16 8, w.extractLsb' 8 8, w.extractLsb' 0 8, ?_, happend _, happend _⟩
    rw [← bigEndian_bytesOf32 w]
    simp [bigEndian, bytesOf32]
  · rw [addString, ← happend]

/-! ### Reads -/

theorem readBytes_eq (c : Cursor) (n : Nat) :
    readBytes c n = if n ≤ c.buf.length - c.pos then (⟨c.buf, c.pos + n⟩, some ((c.buf.drop c.pos).take n))
      else (c, none) := by
  split_ifs with h
  · exact readBytes_fits h
  · exact readBytes_short (Nat.not_le.mp h)

theorem readValue_wholeOrNothing (c : Cursor) (n : Nat) : Claim.ReadsWholeOrNothing c n (readValue c n) := by
  unfold Claim.ReadsWholeOrNothing
  split_ifs with h
  · rw [readValue_of (readBytes_fits h)]
    exact ⟨rfl, rfl⟩
  · rw [readValue_short (Nat.not_le.mp h)]
    exact ⟨rfl, rfl⟩

/-- What is made of the value a read answers does not matter to the cursor. -/
theorem readsWholeOrNothing_map {α β : Type} {c : Cursor} {n : Nat} {r : Cursor × Option α} (f : α → β)
    (h : Claim.ReadsWholeOrNothing c n r) : Claim.ReadsWholeOrNothing c n (r.1, r.2.map f) := by
  simpa [Claim.ReadsWholeOrNothing] using h

theorem readU8_eq (c : Cursor) :
    readU8 c = if c.pos < c.buf.length then (⟨c.buf, c.pos + 1⟩, some (byteAt c.buf c.pos)) else (c, none) := by
  split_ifs with h
  · have hread : readBytes c 1 = (⟨c.buf, c.pos + 1⟩, some [c.buf[c.pos]]) := by
      rw [readBytes_fits (by rw [remaining]; omega), List.drop_eq_getElem_cons h]
      rfl
    rw [readU8, readValue_of hread, byteAt_eq_getElem h]
    simp [bigEndian]
  · exact readValue_short (by rw [remaining]; omega)

/-- `read_string` takes the length byte and as many bytes as it says, or nothing (R192, C8). -/
theorem readString_eq (c : Cursor) :
    readString c = if c.pos + 1 + (byteAt c.buf c.pos).toNat ≤ c.buf.length then
      (⟨c.buf, c.pos + 1 + (byteAt c.buf c.pos).toNat⟩,
        some (textOf ((c.buf.drop (c.pos + 1)).take (byteAt c.buf c.pos).toNat))) else (c, none) := by
  by_cases hlen : c.pos < c.buf.length
  · have hcond : (byteAt c.buf c.pos).toNat ≤ c.buf.length - (c.pos + 1) ↔
        c.pos + 1 + (byteAt c.buf c.pos).toNat ≤ c.buf.length := by omega
    simp only [readString, readU8_eq, if_pos hlen, readBytes_eq, hcond]
    split_ifs
    · rfl
    · rfl
  · simp only [readString, readU8_eq, if_neg hlen]
    rw [if_neg (by omega)]

/-- A length byte and its text that stand at the cursor are read whole. -/
theorem readString_at (pre bs rest : List Byte) (hbs : bs.length ≤ 255) :
    readString ⟨pre ++ BitVec.ofNat 8 bs.length :: bs ++ rest, pre.length⟩ =
      (⟨pre ++ BitVec.ofNat 8 bs.length :: bs ++ rest, pre.length + (bs.length + 1)⟩, some (textOf bs)) := by
  have hlength : byteAt (pre ++ BitVec.ofNat 8 bs.length :: bs ++ rest) pre.length = BitVec.ofNat 8 bs.length := by
    simp [byteAt]
  have hk : (BitVec.ofNat 8 bs.length : Byte).toNat = bs.length := by
    rw [BitVec.toNat_ofNat, Nat.mod_eq_of_lt (by omega)]
  have htext : ((pre ++ BitVec.ofNat 8 bs.length :: bs ++ rest).drop (pre.length + 1)).take bs.length = bs := by
    simp
  rw [readString_eq]
  simp only [hlength, hk, htext]
  rw [if_pos (by simp only [List.length_append, List.length_cons]; omega), Nat.add_right_comm, Nat.add_assoc]

/-- Settles O49: every typed read is `readValue` at its width. -/
theorem readsNeverPartlyConsume : Obligations.ReadsNeverPartlyConsume := by
  intro c
  have hread := readValue_wholeOrNothing c
  exact ⟨readBytes_eq c, hread, hread 1, hread 2, readsWholeOrNothing_map _ (hread 2),
    readsWholeOrNothing_map _ (hread 4), hread 4, readString_eq c⟩

/-! ### Values read back -/

section
variable {p q : Builder} {bs : List Byte} (h : appendBytes p bs = (q, true)) (rest : List Byte)
include h

theorem appendBytes_length : q.bytes.length = p.bytes.length + bs.length := by
  obtain ⟨-, rfl⟩ := appendBytes_cases h
  exact List.length_append

/-- What an append has put at the end is read from where the end was. -/
theorem readBytes_appended :
    readBytes ⟨q.bytes ++ rest, p.bytes.length⟩ bs.length = (⟨q.bytes ++ rest, q.bytes.length⟩, some bs) := by
  rw [appendBytes_length h]
  obtain ⟨-, rfl⟩ := appendBytes_cases h
  exact readBytes_at p.bytes bs rest

theorem readValue_appended {n : Nat} (hn : bs.length = n) {v : BitVec (8 * n)} (hv : bigEndian bs = v.toNat) :
    readValue ⟨q.bytes ++ rest, p.bytes.length⟩ n = (⟨q.bytes ++ rest, q.bytes.length⟩, some v) := by
  subst hn
  rw [readValue_of (readBytes_appended h rest), hv, BitVec.ofNat_toNat, BitVec.setWidth_eq]

end

/-- Settles O47: the append put the value's big-endian bytes where the read finds them. -/
theorem appendedValuesAreReadBack : Obligations.AppendedValuesAreReadBack := by
  intro p q b v w bs rest start stop
  refine ⟨fun h => ⟨?_, appendBytes_length h⟩, fun h => ⟨?_, appendBytes_length h⟩, fun h => ⟨?_, appendBytes_length h⟩,
    fun h => ⟨?_, appendBytes_length h⟩, fun h => ⟨?_, appendBytes_length h⟩, fun h => ⟨?_, appendBytes_length h⟩⟩
  · exact readValue_appended h rest rfl (bigEndian_singleton b)
  · exact readValue_appended h rest rfl (bigEndian_halves v)
  · have hread : readValue start 2 = (stop, some v) := readValue_appended h rest rfl (bigEndian_halves v)
    rw [readI16, hread]
    rfl
  · have hread : readValue start 4 = (stop, some w) := readValue_appended h rest rfl (bigEndian_bytesOf32 w)
    rw [readI32, hread]
    rfl
  · exact readValue_appended h rest rfl (bigEndian_bytesOf32 w)
  · exact readBytes_appended h rest

/-! ### Text -/

theorem utf8_length_ge (text : List Char) : text.length ≤ (utf8 text).length := by
  induction text with
  | nil => exact Nat.le_refl _
  | cons c text ih =>
    have hc := utf8OfChar_length_pos c
    simp only [utf8, List.flatMap_cons, List.length_append, List.length_cons] at ih ⊢
    omega

theorem utf8_cons (c : Char) (text : List Char) : utf8 (c :: text) = utf8OfChar c ++ utf8 text :=
  List.flatMap_cons

/-- Each character of a valid text is read in one step. -/
theorem textFrom_chars (text : List Char) (fuel : Nat) (s : List Byte) :
    textFrom (text.length + fuel) [] (utf8 text ++ s) = text ++ textFrom fuel [] s := by
  induction text with
  | nil => rw [List.length_nil, Nat.zero_add]; rfl
  | cons c text ih =>
    rw [utf8_cons, List.length_cons, Nat.add_right_comm, List.append_assoc, textFrom_char, ih]
    rfl

/-- Each byte of an invalid stretch is put aside in one step. -/
theorem textFrom_stretch (bad s : List Byte) (hbad : ∀ j, j < bad.length → utf8Head ((bad ++ s).drop j) = none)
    (fuel : Nat) (seen : List Byte) :
    textFrom (bad.length + fuel) seen (bad ++ s) = textFrom fuel (seen ++ bad) s := by
  induction bad generalizing seen with
  | nil => simp
  | cons b bad ih =>
    have hhead : utf8Head (b :: (bad ++ s)) = none := hbad 0 (by simp)
    have htail : ∀ j, j < bad.length → utf8Head ((bad ++ s).drop j) = none :=
      fun j hj => hbad (j + 1) (by simpa using hj)
    rw [List.length_cons, Nat.add_right_comm, List.cons_append, textFrom_invalid hhead, ih htail, List.append_assoc]
    rfl

theorem textFrom_nil (fuel : Nat) (bad : List Byte) : textFrom fuel bad [] = markersFor bad := by
  cases fuel with
  | zero => rfl
  | succ fuel => rfl

/-- After a stretch, at the end or at a valid text, stand its markers. -/
theorem textFrom_markers {fuel : Nat} {text : List Char} (hfuel : text.length ≤ fuel) (bad : List Byte) :
    textFrom fuel bad (utf8 text) = markersFor bad ++ text := by
  cases text with
  | nil => rw [List.append_nil]; exact textFrom_nil fuel bad
  | cons c text =>
    obtain ⟨n, rfl⟩ := Nat.exists_eq_add_of_le hfuel
    have hrest : textFrom (text.length + n) [] (utf8 text) = text := by
      have hchars := textFrom_chars text n []
      rwa [textFrom_nil, List.append_nil, markersFor, List.append_nil] at hchars
    rw [utf8_cons, List.length_cons, Nat.add_right_comm, textFrom_char, hrest]

/-- A valid text is read back as it is. -/
theorem textOf_utf8 (text : List Char) : textOf (utf8 text) = text :=
  textFrom_markers (utf8_length_ge text) []

/-- Settles O50: the characters before, the bytes of the stretch, and then its markers and the characters after. -/
theorem onlyInvalidSequencesAreReplaced : Obligations.OnlyInvalidSequencesAreReplaced := by
  intro before after bad hne hbad
  obtain ⟨k, hmin, hmax, hmarkers⟩ := markersFor_bounds hne
  refine ⟨k, hmin, hmax, ?_⟩
  obtain ⟨fuel, hfuel, hlen⟩ : ∃ fuel, after.length ≤ fuel ∧
      (utf8 before ++ bad ++ utf8 after).length = before.length + (bad.length + fuel) := by
    have hbefore := utf8_length_ge before
    have hafter := utf8_length_ge after
    refine ⟨(utf8 before).length - before.length + (utf8 after).length, by omega, ?_⟩
    simp only [List.length_append]
    omega
  calc textOf (utf8 before ++ bad ++ utf8 after)
    _ = textFrom (before.length + (bad.length + fuel)) [] (utf8 before ++ (bad ++ utf8 after)) := by
      rw [textOf, hlen, List.append_assoc]
    _ = before ++ textFrom fuel bad (utf8 after) := by
      rw [textFrom_chars, textFrom_stretch bad _ hbad, List.nil_append]
    _ = before ++ List.replicate k Config.replacementMarker ++ after := by
      rw [textFrom_markers hfuel, hmarkers, List.append_assoc]

/-- Settles O48: the appended bytes are the length byte and the encoding, which `read_string` finds at the cursor. -/
theorem stringsAreRejectedAbove255OrReadBack : Obligations.StringsAreRejectedAbove255OrReadBack := by
  intro p q text rest
  constructor
  · intro hlong
    exact if_pos hlong
  · intro h
    rw [addString] at h
    split_ifs at h with hlong
    · cases h
    have hq : q.bytes.length = p.bytes.length + ((utf8 text).length + 1) := appendBytes_length h
    obtain ⟨-, rfl⟩ := appendBytes_cases h
    rw [hq, readString_at _ _ _ (Nat.not_lt.mp hlong), textOf_utf8]

end Sys2Proof.Machine
end

section
/-! The command vocabulary and the error-reporting frame (45_payload_software.md R200 and R202). -/

namespace Sys2Proof.Machine

/-- The system group is listed whole: it has no unnamed member (R200). -/
theorem commandGroup_eq_system_iff (c : Command) :
    commandGroup c = .system ↔ c = .ping ∨ c = .pong ∨ c = .error ∨ c = .ack := by
  cases c with
  | unnamed group k =>
    simp only [commandGroup, reduceCtorEq, or_self, iff_false]
    rintro rfl
    exact k.elim0
  | _ => simp [commandGroup]

/-- Settles O51: the values and groups of the named members stand in the tables. -/
theorem vocabularyHasTheStatedValuesAndGroups : Obligations.VocabularyHasTheStatedValuesAndGroups :=
  ⟨rfl, rfl, rfl, rfl, commandGroup_eq_system_iff, rfl, rfl, rfl⟩

/-- The three appends of an error frame fit in the default maximum, and so does its payload in a frame. -/
theorem errorFrame_fits {before after : List Byte} (e : ErrorCode) (h : before.length + 1 + after.length ≤ 1024) :
    errorFrame before after e =
      some (frameEncode (commandValue .error) (before ++ Config.errorCodeValue e :: after)) := by
  have hbefore : addBytes newBuilder before = (⟨1024, before⟩, true) :=
    appendBytes_fits (show 0 + before.length ≤ 1024 by omega)
  have hcode : addErrorCode ⟨1024, before⟩ e = (⟨1024, before ++ [Config.errorCodeValue e]⟩, true) :=
    appendBytes_fits (show before.length + 1 ≤ 1024 by omega)
  have hafter : addBytes ⟨1024, before ++ [Config.errorCodeValue e]⟩ after =
      (⟨1024, before ++ [Config.errorCodeValue e] ++ after⟩, true) :=
    appendBytes_fits (by rw [List.length_append, List.length_singleton]; exact h)
  simp [errorFrame, hbefore, hcode, hafter, finalizePayload]

/-- Settles O52: the frame is the encoded one, which decodes to its command and payload. -/
theorem errorFrameCarriesTheCodeInItsPayload : Obligations.ErrorFrameCarriesTheCodeInItsPayload := by
  intro before after e h
  have hlen : (before ++ Config.errorCodeValue e :: after).length ≤ 1024 := by
    simp only [List.length_append, List.length_cons]
    omega
  refine ⟨frameOf (commandValue .error) (before ++ Config.errorCodeValue e :: after), ?_,
    frameOfProtocol_frameOf _ hlen, frameDecode_frameOf _ hlen⟩
  rw [errorFrame_fits e h, (frameEncode_eq_frame_iff _ _ _).mpr ⟨hlen, rfl⟩]

end Sys2Proof.Machine
end
